-- ==== Sys2Proof/Word.lean ====
section
/-! DEFINITION. The words of PTB-CORE (spec 00_scope.md R9): the host's 32-bit data word (XLEN), the 8-bit sample and
packed byte (SAMPLEW, BYTEW) and the 9-bit grid entry (ENTRYW). -/

namespace Sys2Proof

/-- A host data word, XLEN = 32 bits (R9). -/
abbrev Word := BitVec 32

/-- A sample or a packed byte, 8 bits (R9). -/
abbrev Byte := BitVec 8

/-- A grid entry, ENTRYW = 9 bits: bit 8 `eol`, bits 7:0 `sample` (R9, R86). -/
abbrev Entry := BitVec 9

end Sys2Proof
end

