-- ==== Sys2Proof/Syntax.lean ====
section
/-! DEFINITION. The commands of PTB-CORE, one constructor per row of spec/opcode_table.json (30_encoding.md R80, R82,
R83). A command has no operand: everything it works on is in registers and memories (R80). -/

namespace Sys2Proof

/-- A command word, decoded. `ign` is what stood in bits 31:2, which R80 says may be any value and which no meaning
reads; it is kept so that decoding and encoding lose no bit (log 12). -/
inductive Instr where
  /-- `OP = 0b01`: pack the grid in GMEM into the bytes of BMEM (R110). -/
  | pack (ign : BitVec 30)
  /-- `OP = 0b10`: unpack the bytes in BMEM into the grid of GMEM (R130). -/
  | unpack (ign : BitVec 30)
  /-- `OP = 0b00`: reserved, a no-operation in every state (R83). -/
  | rsv0 (ign : BitVec 30)
  /-- `OP = 0b11`: reserved, a no-operation in every state (R83). -/
  | rsv3 (ign : BitVec 30)
deriving DecidableEq, Repr

end Sys2Proof
end

