-- ==== Sys2Proof/Decode.lean ====
section
/-! DEFINITION. Decoding and encoding of the command word (30_encoding.md R80, R82, R83, R84). The hardware's one
instruction is one 32-bit word that arrives whole (R55: the host port has no byte order), so the decoder reads a word.
No word is rejected: the reserved values of OP are no-operations and bits 31:2 are ignored (R83). -/

namespace Sys2Proof

/-- The field `OP`, bits 1:0 of the command word (R80). -/
def opField (w : Word) : BitVec 2 := w.extractLsb' 0 2

/-- Bits 31:2 of the command word, ignored by every command (R80). -/
def ignField (w : Word) : BitVec 30 := w.extractLsb' 2 30

/-- The decoder (R80: it "looks at `v & 0x00000003` only"; R82, R83: the four values of OP). -/
def decode (w : Word) : Instr :=
  if opField w = 0b01#2 then .pack (ignField w)
  else if opField w = 0b10#2 then .unpack (ignField w)
  else if opField w = 0b00#2 then .rsv0 (ignField w)
  else .rsv3 (ignField w)

/-- The encoder: bits 31:2, then OP (R80, R82, R83). -/
def encode : Instr → Word
  | .pack ign   => ign ++ 0b01#2
  | .unpack ign => ign ++ 0b10#2
  | .rsv0 ign   => ign ++ 0b00#2
  | .rsv3 ign   => ign ++ 0b11#2

/-- The decoder on an instruction whose bits are the number `w`, numbered as spec/opcode_table.json numbers them. Bits
above `nbits` are 0. More than 32 bits are no command word (R84: every command is one 32-bit word; log 13). -/
def decodeTableWord (nbits w : Nat) : Option Instr :=
  if nbits ≤ 32 then some (decode (BitVec.ofNat 32 (w % 2 ^ nbits))) else none

end Sys2Proof
end

