-- ==== Sys2Proof/Config.lean ====
section
/-! DEFINITION. What the spec leaves to the implementation or to nobody: the OPEN parameters of 00_scope.md R9, and the
one source of free values. -/

namespace Sys2Proof

/-- The OPEN parameters a model takes as arguments (R9, decisions D3 and D7). They are carried in `State.cfg`, so that
a statement about every state is a statement about every choice of them. -/
structure Config where
  /-- `DIMW`, the width in bits of `W` and `H`. -/
  dimw : Nat
  /-- `REG_BASE`, the flat byte offset of the register space. -/
  regBase : Nat
  /-- `GMEM_BASE`, the flat byte offset of the grid memory. -/
  gmemBase : Nat
  /-- `BMEM_BASE`, the flat byte offset of the byte memory. -/
  bmemBase : Nat
deriving DecidableEq, Repr

/-- The defaults of R9: `DIMW` = 8, bases 0x00000, 0x40000, 0x80000. -/
def Config.default : Config := ⟨8, 0x00000, 0x40000, 0x80000⟩

/-- The value the `n`-th draw of an unspecified value gives (93_implementation_defined.md U1, U2, U3). It has no body:
no proof can know it, so a statement that holds of it holds of every value. Log 4. -/
opaque Config.freeWord : Nat → Word

end Sys2Proof
end

