-- ==== Sys2Proof/Machine/State.lean ====
section
/-! DEFINITION. The state of PTB-CORE (10_state.md), as plain data, its reset value (R38), and the names of the ways a
step can stop. -/

namespace Sys2Proof.Machine

/-- The two operations, and the values of the hidden register `OPL` (R31: 0 PACK, 1 UNPACK). -/
inductive Operation where
  | pack
  | unpack
deriving DecidableEq, Repr

/-- The error kinds, the values of `STATUS.ERR` (60_exceptions.md R172). -/
inductive ErrCode where
  /-- code 0 -/
  | noError
  /-- code 1 -/
  | invalidInput
  /-- code 2 -/
  | lengthMismatch
  /-- code 3, reserved: the block never writes it (R173) -/
  | parseError
deriving DecidableEq, Repr

/-- The fields of `STATUS` (R28). -/
structure Status where
  busy : Bool
  done : Bool
  err : ErrCode
deriving DecidableEq, Repr

/-- The operand registers, as the `NAME` of `x[NAME]` (R14, R20 to R23). -/
inductive OperandReg where
  | width
  | height
  | glen
  | blen
deriving DecidableEq, Repr

/-- The three spaces of the host interface (20_memory.md R50, R51). -/
inductive Space where
  | reg
  | gmem
  | bmem
deriving DecidableEq, Repr

/-- Read or write, the kind of a flat transaction (30_encoding.md R89). -/
inductive AccessKind where
  | read
  | write
deriving DecidableEq, Repr

/-- A host transaction in flat form (R89's triple: kind, byte address, data), with the width in bits of the access,
which R55 requires to be a whole word. `data` of a read is not looked at. -/
structure FlatAccess where
  kind : AccessKind
  /-- the byte offset from the block's base address (R51) -/
  addr : Nat
  /-- the width of the access in bits -/
  bits : Nat
  data : Word
deriving DecidableEq, Repr

/-- One entry of the schedule `State.pending`: a move of the outside world, or a turn of the block (R11; log 1). -/
inductive Move where
  /-- `HostWrite(S, i, v)` (R50). -/
  | hostWrite (sp : Space) (i : Nat) (v : Word)
  /-- `HostRead(S, i)` (R50). -/
  | hostRead (sp : Space) (i : Nat)
  /-- a host transaction in flat form (R51, R89) -/
  | flat (a : FlatAccess)
  /-- the block's turn: an element step while BUSY (R11 (b)) -/
  | block
  /-- the reset event (70_reset_and_hazards.md R200) -/
  | reset
  /-- power-up: reset with both memories unspecified (R201) -/
  | powerUp
deriving DecidableEq, Repr

/-- A memory of `n`-bit elements: the elements that hold a known value, by index, indices strictly rising. An index that
is not listed holds an unspecified value (U1, U2), so no listed value can equal it; log 4. -/
abbrev Memory (n : Nat) := List (Nat × BitVec n)

/-- Nothing in the block stops it with a fault (93_implementation_defined.md section 2: "Nothing in the block is `fault`
or `stuck`"), so no step raises one and the type has no constructor (safe: nothing is hidden in it). -/
inductive Fault where
deriving DecidableEq, Repr

/-- The ways a step can have no meaning. All but the first are flat host transactions that the spec says have none. -/
inductive Refusal where
  /-- An instruction not modelled yet. Raised by no arm of exec: every instruction has its meaning. Safe. -/
  | notModelled (mnemonic : String)
  /-- Raised by a flat transaction that is not a whole 32-bit word (R55, U4). Safe: the machine stops. -/
  | notWholeWord
  /-- Raised by a flat transaction at an address that is not a multiple of 4 (R55, U4). Safe: the machine stops. -/
  | misaligned
  /-- Raised by a flat transaction at an address of no element of the three spaces: it belongs to the platform (R51;
  log 10). Safe: the machine stops. -/
  | outsideSpaces
deriving DecidableEq, Repr

/-- Everything the spec gives the machine (10_state.md section 1), and four fields of the model's own: `cfg`, `pending`,
`replies`, `draws`. Registers are numbers, which the spec does arithmetic on over the integers (R12, R13); each is
narrowed to its width wherever it is written (log 6). -/
structure State where
  /-- the OPEN parameters; no step changes them (R9; log 5) -/
  cfg : Config
  /-- `WIDTH`, DIMW bits (R20) -/
  width : Nat
  /-- `HEIGHT`, DIMW bits (R21) -/
  height : Nat
  /-- `GLEN`, LENW bits (R22) -/
  glen : Nat
  /-- `BLEN`, LENW bits (R23) -/
  blen : Nat
  /-- `STATUS` (R28) -/
  status : Status
  /-- `OPL`, hidden (R31) -/
  opl : Operation
  /-- the row of the cursor, DIMW bits, hidden (R25) -/
  r : Nat
  /-- the column of the cursor, DIMW bits, hidden (R25) -/
  c : Nat
  /-- the index of the current grid entry, LENW bits, hidden (R27) -/
  gi : Nat
  /-- the index of the current byte, LENW bits, hidden (R27) -/
  bi : Nat
  /-- the byte accumulator, hidden (R32) -/
  acc : Byte
  /-- the grid memory (R35) -/
  gmem : Memory 9
  /-- the byte memory (R36) -/
  bmem : Memory 8
  /-- the schedule: the moves still to come, first one first; empty means that only the block moves (log 1) -/
  pending : List Move
  /-- the words host reads have returned, newest first (R50; log 3) -/
  replies : List Word
  /-- how many free values have been drawn (U1 to U3; log 4) -/
  draws : Nat
deriving DecidableEq, Repr

/-- `STATUS` = 0 (R38). -/
def Status.zero : Status := ⟨false, false, .noError⟩

/-- The machine right after power-up (R38, R201): every register 0, nothing known of either memory. -/
def State.reset : State where
  cfg := Config.default
  width := 0
  height := 0
  glen := 0
  blen := 0
  status := Status.zero
  opl := .pack
  r := 0
  c := 0
  gi := 0
  bi := 0
  acc := 0#8
  gmem := []
  bmem := []
  pending := []
  replies := []
  draws := 0

end Sys2Proof.Machine
end

