-- ==== Sys2Proof/Machine/Operands.lean ====
section
/-! DEFINITION. Operand forms: register widths and the narrowing of a write (10_state.md R24), the values assembled from
the operand registers and the cursor (30_encoding.md R88, 10_state.md R37), the memories' sizes (00_scope.md R9), and the
grid entry's fields (30_encoding.md R86). -/

namespace Sys2Proof.Machine

/-- The low `n` bits of a number: what a register `n` bits wide keeps of it (R24). -/
def trunc (n v : Nat) : Nat := v % 2 ^ n

/-- `ceil(w / 8)`, computed as R37 says. -/
def ceil8 (w : Nat) : Nat := w / 8 + (if w % 8 ≠ 0 then 1 else 0)

/-- The lane of column `c` in its byte (R88). -/
def lane (c : Nat) : Nat := c % 8

/-- The bit position of column `c` in its byte, `7 - (c mod 8)` (R56, R88). -/
def bitPos (c : Nat) : Nat := 7 - lane c

/-- `DIMMAX` = 2^DIMW - 1 (R9). -/
def dimMax (cfg : Config) : Nat := 2 ^ cfg.dimw - 1

/-- `LENW` = 2 * DIMW (R9). -/
def lenw (cfg : Config) : Nat := 2 * cfg.dimw

/-- `GCAP` = DIMMAX * DIMMAX (R9). -/
def gcap (cfg : Config) : Nat := dimMax cfg * dimMax cfg

/-- `BCAP` = DIMMAX * ceil(DIMMAX / 8) (R9). -/
def bcap (cfg : Config) : Nat := dimMax cfg * ceil8 (dimMax cfg)

/-- The width in bits of an operand register: DIMW or LENW (R20 to R23). -/
def regWidth (cfg : Config) : OperandReg → Nat
  | .width | .height => cfg.dimw
  | .glen | .blen => lenw cfg

/-- `x[NAME]` (R14). -/
def State.x (s : State) : OperandReg → Nat
  | .width => s.width
  | .height => s.height
  | .glen => s.glen
  | .blen => s.blen

/-- `x[NAME] <- v`: the register keeps the low bits its width holds (R14, R24). -/
def State.setX (s : State) (n : OperandReg) (v : Nat) : State :=
  match n with
  | .width => { s with width := trunc (regWidth s.cfg .width) v }
  | .height => { s with height := trunc (regWidth s.cfg .height) v }
  | .glen => { s with glen := trunc (regWidth s.cfg .glen) v }
  | .blen => { s with blen := trunc (regWidth s.cfg .blen) v }

/-- The output length register of an operation: `BLEN` of PACK, `GLEN` of UNPACK (R175, R176). -/
def outReg : Operation → OperandReg
  | .pack => .blen
  | .unpack => .glen

/-- `RB`, the bytes of one row span (R37). -/
def State.rowBytes (s : State) : Nat := ceil8 s.width

/-- The expected entry count `W * H` (R88). -/
def State.entryCount (s : State) : Nat := s.width * s.height

/-- The expected byte count `H * RB` (R88). -/
def State.byteCount (s : State) : Nat := s.height * s.rowBytes

/-- `c = W - 1` over the integers (R112, R132). -/
def State.lastCol (s : State) : Bool := s.c + 1 == s.width

/-- `c mod 8 = 7` or the last column: the step at which a byte ends (R112, R132). -/
def State.endsByte (s : State) : Bool := lane s.c == 7 || s.lastCol

/-- Write of the cursor, each part DIMW bits wide (R25). -/
def State.setCursor (s : State) (r c : Nat) : State :=
  { s with r := trunc s.cfg.dimw r, c := trunc s.cfg.dimw c }

/-- Write of the grid index, LENW bits wide (R27). -/
def State.setGi (s : State) (v : Nat) : State := { s with gi := trunc (lenw s.cfg) v }

/-- Write of the byte index, LENW bits wide (R27). -/
def State.setBi (s : State) (v : Nat) : State := { s with bi := trunc (lenw s.cfg) v }

/-- Write of the accumulator (R32). -/
def State.setAcc (s : State) (v : Byte) : State := { s with acc := v }

/-- Write of `OPL` (R31). -/
def State.setOpl (s : State) (o : Operation) : State := { s with opl := o }

/-- Write of the whole of `STATUS` (R28). -/
def State.setStatus (s : State) (st : Status) : State := { s with status := st }

/-- Replace the grid memory. -/
def State.setGmem (s : State) (m : Memory 9) : State := { s with gmem := m }

/-- Replace the byte memory. -/
def State.setBmem (s : State) (m : Memory 8) : State := { s with bmem := m }

/-- Replace the schedule. -/
def State.setPending (s : State) (ms : List Move) : State := { s with pending := ms }

/-- Record the word a host read returns (R50). -/
def State.reply (s : State) (w : Word) : State := { s with replies := w :: s.replies }

/-- Count one free value as drawn. -/
def State.drew (s : State) : State := { s with draws := s.draws + 1 }

/-- `e.eol`, bit 8 of an entry (R14, R86). -/
def entryEol (e : Entry) : Bool := e.getLsbD 8

/-- `e.sample`, bits 7:0 of an entry (R14, R86). -/
def entrySample (e : Entry) : Byte := e.extractLsb' 0 8

/-- `{eol, sample}` (R12, R86). -/
def mkEntry (eol : Bool) (sample : Byte) : Entry := BitVec.ofBool eol ++ sample

/-- `b << k` as an 8-bit value, of one bit `b` (R13, R158). -/
def shiftedBit (b : Bool) (k : Nat) : Byte := (BitVec.ofBool b).setWidth 8 <<< k

end Sys2Proof.Machine
end

