-- ==== Sys2Proof/Machine/Flags.lean ====
section
/-! DEFINITION. `STATUS`: the codes of its error field (60_exceptions.md R172), the word a host reads (30_encoding.md R85)
and the values the events of an operation give it (R81, R175, R176). -/

namespace Sys2Proof.Machine

/-- The 2-bit code of an error kind (R172). -/
def errBits : ErrCode → BitVec 2
  | .noError => 0
  | .invalidInput => 1
  | .lengthMismatch => 2
  | .parseError => 3

/-- The word `HostRead(REG, 1)` returns: bits 31:4 zero, 3:2 ERR, 1 DONE, 0 BUSY (R85). -/
def statusWord (st : Status) : Word :=
  0#28 ++ errBits st.err ++ BitVec.ofBool st.done ++ BitVec.ofBool st.busy

/-- `DONE <- 0`, `ERR <- 0`: the first act of an accepted command (R81 (1)). -/
def Status.cleared (st : Status) : Status := { st with done := false, err := .noError }

/-- `BUSY <- 1` (R81 (4)). -/
def Status.started (st : Status) : Status := { st with busy := true }

/-- `BUSY <- 0`, `DONE <- 1`, `ERR <- code(e)`: completion (R175 with no error, R176 with one). -/
def Status.completed (e : ErrCode) : Status := ⟨false, true, e⟩

end Sys2Proof.Machine
end

