-- ==== Sys2Proof/Machine/Ops.lean ====
section
/-! DEFINITION. The named operations: memory elements, free values, the block's accesses (00_scope.md R14), the end of
an operation with and without error (60_exceptions.md R175, R176), the acceptance of a command (30_encoding.md R81) and
the advance of the cursor (10_state.md R26). -/

namespace Sys2Proof.Machine

/-! ### Memories -/

/-- The known value of element `i`, if it has one. -/
def Memory.read? {n : Nat} : Memory n → Nat → Option (BitVec n)
  | [], _ => none
  | (a, v) :: m, i => if i = a then some v else Memory.read? m i

/-- Put `v` at index `i`, keeping the indices strictly rising. -/
def Memory.insert {n : Nat} (i : Nat) (v : BitVec n) : Memory n → Memory n
  | [] => [(i, v)]
  | (a, w) :: m =>
    if i < a then (i, v) :: (a, w) :: m
    else if i = a then (i, v) :: m
    else (a, w) :: Memory.insert i v m

/-- A write of element `i` of a space of `cap` elements; outside the space nothing is written (R54; log 9). -/
def Memory.write {n : Nat} (cap : Nat) (m : Memory n) (i : Nat) (v : BitVec n) : Memory n :=
  if i < cap then Memory.insert i v m else m

/-- The canonical form from index `lo` on: indices strictly rising, at least `lo` and below `cap`. -/
def Memory.wfFrom {n : Nat} (cap : Nat) : Nat → Memory n → Bool
  | _, [] => true
  | lo, (a, _) :: m => decide (lo ≤ a) && decide (a < cap) && Memory.wfFrom cap (a + 1) m

/-- The canonical form of a memory of `cap` elements. -/
def Memory.wf {n : Nat} (cap : Nat) (m : Memory n) : Bool := Memory.wfFrom cap 0 m

/-! ### Free values and the block's accesses -/

/-- Draw a free 32-bit value (U1, U2, U3). -/
def drawWord (s : State) : Word × State := (Config.freeWord s.draws, s.drew)

/-- `MemRead(GMEM, i, 9)` (R14): the entry, or a fresh free value where it is unspecified (R203, U1). -/
def memReadGrid (s : State) (i : Nat) : Entry × State :=
  match Memory.read? s.gmem i with
  | some e => (e, s)
  | none => ((drawWord s).1.setWidth 9, (drawWord s).2)

/-- `MemRead(BMEM, i, 8)` (R14): the byte, or a fresh free value where it is unspecified (R203, U1). -/
def memReadByte (s : State) (i : Nat) : Byte × State :=
  match Memory.read? s.bmem i with
  | some b => (b, s)
  | none => ((drawWord s).1.setWidth 8, (drawWord s).2)

/-- `MemWrite(GMEM, i, 9, e)` (R14). -/
def memWriteGrid (s : State) (i : Nat) (e : Entry) : State :=
  s.setGmem (Memory.write (gcap s.cfg) s.gmem i e)

/-- `MemWrite(BMEM, i, 8, b)` (R14). -/
def memWriteByte (s : State) (i : Nat) (b : Byte) : State :=
  s.setBmem (Memory.write (bcap s.cfg) s.bmem i b)

/-! ### The end of an operation -/

/-- `raise e`: completion of operation `o` with error `e` (R176). This is the block's whole "trap entry" (R179): the
output length register is cleared, BUSY falls, DONE rises, ERR takes the code, and nothing else is written. -/
def raise (o : Operation) (e : ErrCode) (s : State) : State :=
  (s.setX (outReg o) 0).setStatus (Status.completed e)

/-- `finish_ok`: completion of operation `o` without error, with output length `n` (R175). -/
def finishOk (o : Operation) (n : Nat) (s : State) : State :=
  (s.setX (outReg o) n).setStatus (Status.completed .noError)

/-! ### The start of an operation -/

/-- R81 (4): the hidden registers are overwritten and BUSY rises. -/
def begin (o : Operation) (s : State) : State :=
  ((((((s.setOpl o).setCursor 0 0).setGi 0).setBi 0).setAcc 0#8)).setStatus s.status.started

/-- Acceptance of a command (R81), the only "return" from an error there is (R180): DONE and ERR are cleared, the start
check runs, and the operation either completes at once with the error or begins. A command that comes while BUSY is
ignored (R53). -/
def accept (o : Operation) (check : State → Option ErrCode) (s : State) : State :=
  if s.status.busy then s
  else
    let s1 := s.setStatus s.status.cleared
    match check s1 with
    | some e => raise o e s1
    | none => begin o s1

/-! ### The cursor -/

/-- The last part of every element step (R26, R112, R132): to the next column, to the next row, or, after the pixel
(`H - 1`, `W - 1`), the end of the operation. -/
def advance (finish : State → State) (s : State) : State :=
  if !s.lastCol then s.setCursor s.r (s.c + 1)
  else if s.r + 1 < s.height then s.setCursor (s.r + 1) 0
  else finish s

end Sys2Proof.Machine
end

