-- ==== Sys2Proof/Machine/Binarizer.lean ====
section
/-! DEFINITION. BIN, the pixel binarizer (40_binarizer.md). -/

namespace Sys2Proof.Machine

/-- `bin(p)`: 0 exactly on the black sentinel 0, 1 otherwise (R100, R101). -/
def bin (p : Byte) : Bool := p != 0x00#8

/-- `white(b)`: the sample an unpacked bit becomes, 0x00 or 0xFF (R133). -/
def white (b : Bool) : Byte := if b then 0xFF#8 else 0x00#8

end Sys2Proof.Machine
end

