-- ==== Sys2Proof/Machine/Pack.lean ====
section
/-! DEFINITION. PACK, the bit-packer (41_packer.md): the command and its element step. -/

namespace Sys2Proof.Machine

/-- The start check of PACK: dimensions first, then the number of entries (R111, R178). -/
def packStartCheck (s : State) : Option ErrCode :=
  if s.width = 0 ∨ s.height = 0 then some .invalidInput
  else if s.glen ≠ s.entryCount then some .invalidInput
  else none

/-- The meaning of the command PACK: it is accepted while idle and its start check runs in the same step (R81, R110). -/
def execPack (s : State) : Host.Outcome State Fault Refusal :=
  .next (accept .pack packStartCheck s)

/-- The byte being filled, with the bit of the current pixel: `acc | (b << (7 - (c mod 8)))` (R112). -/
def filledByte (e : Entry) (s : State) : Byte := s.acc ||| shiftedBit (bin (entrySample e)) (bitPos s.c)

/-- The part of PACK's element step that follows a passed row check (R112), on the entry `e` just read. -/
def packPixel (e : Entry) (s : State) : State :=
  let a := filledByte e s
  let s1 := if s.endsByte then ((memWriteByte s s.bi a).setBi (s.bi + 1)).setAcc 0#8 else s.setAcc a
  advance (fun t => finishOk .pack t.bi t) (s1.setGi (s.gi + 1))

/-- The element step of PACK (R112): the row check comes first, and a step that fails it writes nothing else (R113). -/
def packStep (s : State) : State :=
  let (e, s0) := memReadGrid s s.gi
  if entryEol e ≠ s.lastCol then raise .pack .invalidInput s0 else packPixel e s0

end Sys2Proof.Machine
end

