-- ==== Sys2Proof/Machine/Reserved.lean ====
section
/-! DEFINITION. The reserved encodings of the command word (30_encoding.md R83): no-operations in every state. -/

namespace Sys2Proof.Machine

/-- `OP = 0b00` changes nothing (R83). -/
def execRsv0 (s : State) : Host.Outcome State Fault Refusal := .next s

/-- `OP = 0b11` changes nothing (R83). -/
def execRsv3 (s : State) : Host.Outcome State Fault Refusal := .next s

end Sys2Proof.Machine
end

