-- ==== Sys2Proof/Machine/Unpack.lean ====
section
/-! DEFINITION. UNPACK, the bit-unpacker (42_unpacker.md): the command and its element step. -/

namespace Sys2Proof.Machine

/-- The start check of UNPACK: dimensions first, then the number of bytes (R131, R178). -/
def unpackStartCheck (s : State) : Option ErrCode :=
  if s.width = 0 ∨ s.height = 0 then some .invalidInput
  else if s.blen ≠ s.byteCount then some .lengthMismatch
  else none

/-- The meaning of the command UNPACK: it is accepted while idle and its start check runs in the same step (R81, R130). -/
def execUnpack (s : State) : Host.Outcome State Fault Refusal :=
  .next (accept .unpack unpackStartCheck s)

/-- The byte an element step of UNPACK works on: fetched at the first column of the byte, held in `acc` after (R132). -/
def unpackFetch (s : State) : Byte × State :=
  if lane s.c = 0 then memReadByte s s.bi else (s.acc, s)

/-- The part of UNPACK's element step that follows the fetch (R132, R133), on the byte `cur`. -/
def unpackPixel (cur : Byte) (s : State) : State :=
  let s1 := s.setAcc cur
  let s2 := memWriteGrid s1 s.gi (mkEntry s.lastCol (white (cur.getLsbD (bitPos s.c))))
  let s3 := s2.setGi (s.gi + 1)
  let s4 := if s.endsByte then s3.setBi (s.bi + 1) else s3
  advance (fun t => finishOk .unpack t.gi t) s4

/-- The element step of UNPACK (R132). -/
def unpackStep (s : State) : State :=
  let (cur, s0) := unpackFetch s
  unpackPixel cur s0

end Sys2Proof.Machine
end

