-- ==== Sys2Proof/Machine/Dispatch.lean ====
section
/-! DEFINITION. The meaning of each command: one arm per constructor of Instr. -/

namespace Sys2Proof.Machine

def exec (i : Instr) (s : State) : Host.Outcome State Fault Refusal :=
  match i with
  | .pack _ => Sys2Proof.Machine.execPack s
  | .unpack _ => Sys2Proof.Machine.execUnpack s
  | .rsv0 _ => Sys2Proof.Machine.execRsv0 s
  | .rsv3 _ => Sys2Proof.Machine.execRsv3 s

end Sys2Proof.Machine
end

