-- ==== Sys2Proof/Machine/HostPort.lean ====
section
/-! DEFINITION. What the outside world does to the block (20_memory.md R50 to R55, 70_reset_and_hazards.md R200, R201) and
the block's own turn (00_scope.md R11). -/

namespace Sys2Proof.Machine

/-! ### Host transactions -/

/-- The word register `i` of REG reads as (R52, R54): `CTRL` 0, `STATUS`, the operand registers zero-extended, and 0 at
an index outside the space. -/
def regRead (s : State) : Nat → Word
  | 0 => 0#32
  | 1 => statusWord s.status
  | 2 => BitVec.ofNat 32 (s.x .width)
  | 3 => BitVec.ofNat 32 (s.x .height)
  | 4 => BitVec.ofNat 32 (s.x .glen)
  | 5 => BitVec.ofNat 32 (s.x .blen)
  | _ => 0#32

/-- `HostWrite(REG, i, v)` (R52, R54): index 0 is a command, `STATUS` is read-only, the operand registers keep the low
bits, an index outside the space is ignored. While BUSY a write is ignored (R53); a command then is turned away by
its own meaning. -/
def regWrite (s : State) (i : Nat) (v : Word) : Host.Outcome State Fault Refusal :=
  match i with
  | 0 => exec (decode v) s
  | 2 => .next (if s.status.busy then s else s.setX .width v.toNat)
  | 3 => .next (if s.status.busy then s else s.setX .height v.toNat)
  | 4 => .next (if s.status.busy then s else s.setX .glen v.toNat)
  | 5 => .next (if s.status.busy then s else s.setX .blen v.toNat)
  | _ => .next s

/-- `HostWrite(S, i, v)` (R52, R53, R54). -/
def hostWrite (sp : Space) (i : Nat) (v : Word) (s : State) : Host.Outcome State Fault Refusal :=
  match sp with
  | .reg => regWrite s i v
  | .gmem => .next (if s.status.busy then s else memWriteGrid s i (v.setWidth 9))
  | .bmem => .next (if s.status.busy then s else memWriteByte s i (v.setWidth 8))

/-- A host read of a memory while BUSY returns an unspecified word and changes nothing (R53, U3). -/
def busyRead (s : State) : State := (drawWord s).2.reply (drawWord s).1

/-- `HostRead(S, i)` (R52, R53, R54): the word returned is put in front of `replies`. -/
def hostRead (sp : Space) (i : Nat) (s : State) : State :=
  match sp with
  | .reg => s.reply (regRead s i)
  | .gmem =>
    if s.status.busy then busyRead s
    else if i < gcap s.cfg then (memReadGrid s i).2.reply ((memReadGrid s i).1.setWidth 32)
    else s.reply 0#32
  | .bmem =>
    if s.status.busy then busyRead s
    else if i < bcap s.cfg then (memReadByte s i).2.reply ((memReadByte s i).1.setWidth 32)
    else s.reply 0#32

/-! ### The flat binding -/

/-- The number of elements of a space (R51). -/
def spaceSize (cfg : Config) : Space → Nat
  | .reg => 6
  | .gmem => gcap cfg
  | .bmem => bcap cfg

/-- The flat base of a space (R51). -/
def spaceBase (cfg : Config) : Space → Nat
  | .reg => cfg.regBase
  | .gmem => cfg.gmemBase
  | .bmem => cfg.bmemBase

/-- The index of the element of `sp` at byte address `addr`, where there is one: element `i` is at `base + 4 * i` (R51). -/
def indexIn (cfg : Config) (sp : Space) (addr : Nat) : Option Nat :=
  if spaceBase cfg sp ≤ addr ∧ (addr - spaceBase cfg sp) % 4 = 0 ∧ (addr - spaceBase cfg sp) / 4 < spaceSize cfg sp then
    some ((addr - spaceBase cfg sp) / 4)
  else none

/-- The space and index a flat address stands for (R51; log 10). -/
def resolve (cfg : Config) (addr : Nat) : Option (Space × Nat) :=
  match indexIn cfg .reg addr, indexIn cfg .gmem addr, indexIn cfg .bmem addr with
  | some i, _, _ => some (.reg, i)
  | none, some i, _ => some (.gmem, i)
  | none, none, some i => some (.bmem, i)
  | none, none, none => none

/-- A flat transaction: whole words at multiples of 4 only (R55, U4), and then the transaction on the space and index
its address stands for (R51, R89). -/
def flatAccess (a : FlatAccess) (s : State) : Host.Outcome State Fault Refusal :=
  if a.bits ≠ 32 then .refused .notWholeWord
  else if a.addr % 4 ≠ 0 then .refused .misaligned
  else
    match resolve s.cfg a.addr with
    | none => .refused .outsideSpaces
    | some (sp, i) =>
      match a.kind with
      | .read => .next (hostRead sp i s)
      | .write => hostWrite sp i a.data s

/-! ### Reset -/

/-- Every register at its reset value (R38, R200); memories, schedule, replies, draws and parameters untouched. -/
def resetRegisters (s : State) : State :=
  { s with
    width := 0, height := 0, glen := 0, blen := 0, status := Status.zero, opl := .pack
    r := 0, c := 0, gi := 0, bi := 0, acc := 0#8 }

/-- The output memory of operation `o` becomes unspecified in every element (R200, U2). -/
def forgetOutput (o : Operation) (s : State) : State :=
  match o with
  | .pack => s.setBmem []
  | .unpack => s.setGmem []

/-- The reset event (R200): idle, both memories keep their contents; BUSY, the output memory of the running operation
becomes unspecified. -/
def resetEvent (s : State) : State :=
  resetRegisters (if s.status.busy then forgetOutput s.opl s else s)

/-- Power-up: reset with both memories unspecified in every element (R201). -/
def powerUpEvent (s : State) : State := resetRegisters ((s.setGmem []).setBmem [])

/-! ### The block, and one move of the schedule -/

/-- The element step of the operation that is running (R112, R132). -/
def elementStep (s : State) : State :=
  match s.opl with
  | .pack => packStep s
  | .unpack => unpackStep s

/-- The block's turn: an element step while BUSY, no step while idle (R11, R185; log 2). -/
def blockTurn (s : State) : State := if s.status.busy then elementStep s else s

/-- One move of the schedule. -/
def perform (m : Move) (s : State) : Host.Outcome State Fault Refusal :=
  match m with
  | .hostWrite sp i v => hostWrite sp i v s
  | .hostRead sp i => .next (hostRead sp i s)
  | .flat a => flatAccess a s
  | .block => .next (blockTurn s)
  | .reset => .next (resetEvent s)
  | .powerUp => .next (powerUpEvent s)

/-- The next move: the first of the schedule, or the block's turn when nothing is scheduled (log 1). -/
def nextMove (s : State) : Host.Outcome State Fault Refusal :=
  match s.pending with
  | [] => .next (blockTurn s)
  | m :: ms => perform m (s.setPending ms)

/-- The command word `w` as the very next move: `HostWrite(REG, 0, w)` at the head of the schedule (R80; log 13). -/
def scheduleCommand (s : State) (w : Word) : State := s.setPending (.hostWrite .reg 0 w :: s.pending)

end Sys2Proof.Machine
end

