-- ==== Sys2Proof/Machine/Step.lean ====
section
/-! DEFINITION. One step of the machine: one host transaction, one turn of the block, one reset (20_memory.md R50, R65). -/

namespace Sys2Proof.Machine

/-- One step (R65: a single interleaving of host transactions and block steps). -/
def step (s : State) : Host.Outcome State Fault Refusal := nextMove s

/-- `s` with the instruction of bits `w` (bits above `nbits` zero) as the command word of the very next move: this
hardware fetches no instruction, a command is what the host writes to CTRL (R3, R80; log 13). -/
def State.withFetchWord (s : State) (nbits w : Nat) : State := scheduleCommand s (BitVec.ofNat 32 (w % 2 ^ nbits))

end Sys2Proof.Machine
end

