-- ==== Sys2Proof/Machine/HostNotation.lean ====
section
/-! DEFINITION. The host notation and its pseudo-instructions (30_encoding.md R89): what each line expands to, and its
encoding as a flat transaction. The machine does not read it: a line is a way to write an entry of `State.pending`. -/

namespace Sys2Proof.Machine

/-- A line of the host notation (R89). -/
inductive HostLine where
  /-- `WR WIDTH, n` and its like: a write of register `i` of REG -/
  | wrReg (i : Nat) (n : Word)
  /-- `RD name`: a read of register `i` of REG -/
  | rdReg (i : Nat)
  /-- `WR GMEM[i], n` -/
  | wrGmem (i : Nat) (n : Word)
  /-- `RD GMEM[i]` -/
  | rdGmem (i : Nat)
  /-- `WR BMEM[i], n` -/
  | wrBmem (i : Nat) (n : Word)
  /-- `RD BMEM[i]` -/
  | rdBmem (i : Nat)
  /-- `PACK` -/
  | pack
  /-- `UNPACK` -/
  | unpack
  /-- one of the `STATUS` reads of `WAIT`, which repeats it until the word read has bit 0 = 0; how many reads that takes,
  and the block's turns between them, are open (U10) and stand in the schedule -/
  | poll
  /-- `PX i, s`: an entry with `eol = 0` -/
  | px (i : Nat) (s : Byte)
  /-- `PXE i, s`: an entry with `eol = 1` -/
  | pxe (i : Nat) (s : Byte)
deriving DecidableEq, Repr

/-- What a line does: its kind, space, index and data (R89). -/
def HostLine.triple : HostLine → AccessKind × Space × Nat × Word
  | .wrReg i n => (.write, .reg, i, n)
  | .rdReg i => (.read, .reg, i, 0#32)
  | .wrGmem i n => (.write, .gmem, i, n)
  | .rdGmem i => (.read, .gmem, i, 0#32)
  | .wrBmem i n => (.write, .bmem, i, n)
  | .rdBmem i => (.read, .bmem, i, 0#32)
  | .pack => (.write, .reg, 0, 0x00000001#32)
  | .unpack => (.write, .reg, 0, 0x00000002#32)
  | .poll => (.read, .reg, 1, 0#32)
  | .px i s => (.write, .gmem, i, s.setWidth 32)
  | .pxe i s => (.write, .gmem, i, 0x100#32 + s.setWidth 32)

/-- The transaction a line stands for, in the form (space, index) (R89). -/
def HostLine.transaction (l : HostLine) : Move :=
  match l.triple with
  | (.write, sp, i, n) => .hostWrite sp i n
  | (.read, sp, i, _) => .hostRead sp i

/-- The encoding of a line: kind, flat byte address, data (R89, R51). -/
def HostLine.encoding (cfg : Config) (l : HostLine) : FlatAccess :=
  match l.triple with
  | (k, sp, i, n) => ⟨k, spaceBase cfg sp + 4 * i, 32, n⟩

/-- The index of a line is one of its space (R51). -/
def HostLine.inRange (cfg : Config) (l : HostLine) : Bool :=
  match l.triple with
  | (_, sp, i, _) => decide (i < spaceSize cfg sp)

end Sys2Proof.Machine
end

