-- ==== Sys2Proof/Machine/Codec.lean ====
section
/-! DEFINITION. The two transforms as pure functions (43_codec_laws.md), on a grid as a list of rows of samples and a byte
sequence as a list of bytes, and the image of a grid in GMEM (30_encoding.md R86, 41_packer.md R113). The machine does not
call them: the claims compare it with them (R152). -/

namespace Sys2Proof.Machine

/-- The byte whose lane `j` (bit `7 - j`) is `f j`: the sum of R150 (R87). -/
def laneByte (f : Nat → Bool) : Byte := ((List.range 8).map fun j => shiftedBit (f j) (7 - j)).sum

/-- Byte `k` of the row span of a row with samples `row 0`, …, `row (w - 1)` (R150): `bin` of column `8k + j` in lane `j`
where that column exists, 0 where it does not. -/
def packByte (w : Nat) (row : Nat → Byte) (k : Nat) : Byte :=
  laneByte fun j => decide (8 * k + j < w) && bin (row (8 * k + j))

/-- The row span of one row, `ceil(W / 8)` bytes (R150). -/
def packRow (w : Nat) (row : List Byte) : List Byte :=
  (List.range (ceil8 w)).map (packByte w fun c => row.getD c 0#8)

/-- `h` rows of exactly `w` samples each (R113). -/
def rectangular (g : List (List Byte)) (w h : Nat) : Bool := g.length == h && g.all fun row => row.length == w

/-- `pack(G, W, H)` (R150), and InvalidInput where it has no value (R152, R170). -/
def Codec.pack (g : List (List Byte)) (w h : Nat) : Except ErrCode (List Byte) :=
  if w = 0 ∨ h = 0 then .error .invalidInput
  else if rectangular g w h then .ok (g.flatMap (packRow w))
  else .error .invalidInput

/-- `U[r][c]` of R151: 255 where bit `7 - (c mod 8)` of byte `r * RB + (c div 8)` is 1, else 0. -/
def unpackedSample (b : List Byte) (w r c : Nat) : Byte :=
  white ((b.getD (r * ceil8 w + c / 8) 0#8).getLsbD (bitPos c))

/-- `unpack(B, W, H)` (R151). -/
def Codec.unpack (b : List Byte) (w h : Nat) : Except ErrCode (List (List Byte)) :=
  if w = 0 ∨ h = 0 then .error .invalidInput
  else if b.length ≠ h * ceil8 w then .error .lengthMismatch
  else .ok ((List.range h).map fun r => (List.range w).map fun c => unpackedSample b w r c)

/-- The entries of one row: `eol` on the last one (R86). -/
def rowEntries : List Byte → List Entry
  | [] => []
  | [p] => [mkEntry true p]
  | p :: q :: ps => mkEntry false p :: rowEntries (q :: ps)

/-- The image of a grid in GMEM: the rows one after another (R35, R86). -/
def gridImage (g : List (List Byte)) : List Entry := g.flatMap rowEntries

/-- Cut a sequence of entries after every entry with `eol = 1`, with `cur` the row begun so far: the rows, and what is
left over (R113). -/
def cutRowsFrom : List Byte → List Entry → List (List Byte) × List Byte
  | cur, [] => ([], cur)
  | cur, e :: es =>
    if entryEol e then
      let rest := cutRowsFrom [] es
      ((cur ++ [entrySample e]) :: rest.1, rest.2)
    else cutRowsFrom (cur ++ [entrySample e]) es

/-- The rows of a sequence of entries, and what is left over (R113). -/
def cutRows (es : List Entry) : List (List Byte) × List Byte := cutRowsFrom [] es

/-- The first `k` elements of a memory, where every one of them has a known value. -/
def Memory.prefix? {n : Nat} (m : Memory n) (k : Nat) : Option (List (BitVec n)) := (List.range k).mapM (Memory.read? m)

/-- Every padding bit of a byte sequence cleared (R156): the bits of lanes whose column does not exist. -/
def clearPadding (w : Nat) (b : List Byte) : List Byte :=
  b.mapIdx fun i v => laneByte fun j => decide (8 * (i % ceil8 w) + j < w) && v.getLsbD (7 - j)

end Sys2Proof.Machine
end

