-- ==== Sys2Proof/WellFormed.lean ====
section
/-! DEFINITION. Which terms stand for something the spec has: a command, a configuration, a flat host transaction. -/

namespace Sys2Proof

/-- Every command is well-formed: bits 31:2 may hold any value (30_encoding.md R80, R83). -/
def Instr.wellFormed : Instr → Bool
  | .pack _ => true
  | .unpack _ => true
  | .rsv0 _ => true
  | .rsv3 _ => true

/-- `DIMW` is at least 1 (00_scope.md R9), and LENW fits the 32-bit word a register is read through (R9, 10_state.md R24;
log 5). -/
def Config.dimwOk (c : Config) : Bool := decide (1 ≤ c.dimw) && decide (2 * c.dimw ≤ 32)

/-- The base of each space is a multiple of 4 (20_memory.md R51, R55). -/
def Config.basesAligned (c : Config) : Bool :=
  c.regBase % 4 == 0 && c.gmemBase % 4 == 0 && c.bmemBase % 4 == 0

/-- The flat windows of two spaces do not overlap (R51). -/
def Config.apart (c : Config) (p q : Machine.Space) : Bool :=
  decide (Machine.spaceBase c p + 4 * Machine.spaceSize c p ≤ Machine.spaceBase c q)
    || decide (Machine.spaceBase c q + 4 * Machine.spaceSize c q ≤ Machine.spaceBase c p)

/-- A configuration the spec allows (R9, R51). -/
def Config.wellFormed (c : Config) : Bool :=
  c.dimwOk && c.basesAligned && c.apart .reg .gmem && c.apart .reg .bmem && c.apart .gmem .bmem

/-- A flat transaction is a whole word (R55). -/
def Machine.FlatAccess.wholeWord (a : Machine.FlatAccess) : Bool := a.bits == 32

/-- A flat transaction is at a multiple of 4 (R55). -/
def Machine.FlatAccess.aligned (a : Machine.FlatAccess) : Bool := a.addr % 4 == 0

/-- A flat transaction is at an element of one of the three spaces (R51). -/
def Machine.FlatAccess.inSpaces (c : Config) (a : Machine.FlatAccess) : Bool := (Machine.resolve c a.addr).isSome

/-- A flat transaction that has a meaning (R51, R55). -/
def Machine.FlatAccess.wellFormed (c : Config) (a : Machine.FlatAccess) : Bool :=
  a.wholeWord && a.aligned && a.inSpaces c

/-- A move of the schedule that has a meaning: every one but an ill-formed flat transaction (U4). -/
def Machine.Move.wellFormed (c : Config) : Machine.Move → Bool
  | .flat a => a.wellFormed c
  | .hostWrite _ _ _ => true
  | .hostRead _ _ => true
  | .block => true
  | .reset => true
  | .powerUp => true

end Sys2Proof
end

