-- ==== Sys2Proof/Safety.lean ====
section
/-! DEFINITION. What the spec says is true of every state a run reaches (10_state.md R25, R27, R29, R32, R37): the
invariants the claims are stated with. -/

namespace Sys2Proof.Machine

/-- Every register holds a number of its width (10_state.md section 1). -/
structure State.WidthsOk (s : State) : Prop where
  width : s.width < 2 ^ s.cfg.dimw
  height : s.height < 2 ^ s.cfg.dimw
  glen : s.glen < 2 ^ lenw s.cfg
  blen : s.blen < 2 ^ lenw s.cfg
  r : s.r < 2 ^ s.cfg.dimw
  c : s.c < 2 ^ s.cfg.dimw
  gi : s.gi < 2 ^ lenw s.cfg
  bi : s.bi < 2 ^ lenw s.cfg

/-- Both memories are in canonical form and hold nothing outside their spaces. -/
structure State.MemoryOk (s : State) : Prop where
  gmem : Memory.wf (gcap s.cfg) s.gmem = true
  bmem : Memory.wf (bcap s.cfg) s.bmem = true

/-- The invariants of `STATUS` (R29). -/
structure State.StatusOk (s : State) : Prop where
  busy_done : ¬ (s.status.busy = true ∧ s.status.done = true)
  err_done : s.status.err ≠ .noError → s.status.done = true
  busy_err : s.status.busy = true → s.status.err = .noError
  err_code : s.status.err ≠ .parseError

/-- While BUSY the cursor names a pixel of the grid and the indices follow it (R25, R27). -/
structure State.CursorOk (s : State) : Prop where
  row : s.r < s.height
  col : s.c < s.width
  grid : s.gi = s.r * s.width + s.c
  byte : s.bi = s.r * s.rowBytes + s.c / 8

/-- Byte `k` of row `r` in BMEM is what R87 and R115 say, as far as the entries it was packed from are still known. -/
def packedByteOk (s : State) (r k : Nat) : Prop :=
  ∃ b, Memory.read? s.bmem (r * s.rowBytes + k) = some b ∧
    ∀ j < 8,
      (8 * k + j < s.width → ∀ e, Memory.read? s.gmem (r * s.width + (8 * k + j)) = some e →
        b.getLsbD (7 - j) = bin (entrySample e)) ∧
      (s.width ≤ 8 * k + j → b.getLsbD (7 - j) = false)

/-- What is true before every element step of a running PACK: its input length passed the start check (R111), the entries
behind the cursor passed the row check (R113), `acc` holds the bits of the byte being filled and 0 elsewhere (R32), and
the bytes below `bi` are packed (R115). -/
structure State.PackOk (s : State) : Prop where
  input : s.glen = s.entryCount
  rows : ∀ r c, c < s.width → r * s.width + c < s.gi → ∀ e, Memory.read? s.gmem (r * s.width + c) = some e →
    entryEol e = decide (c + 1 = s.width)
  filled : ∀ j, 8 * (s.c / 8) ≤ j → j < s.c → ∀ e, Memory.read? s.gmem (s.r * s.width + j) = some e →
    s.acc.getLsbD (bitPos j) = bin (entrySample e)
  empty : ∀ p, p ≤ bitPos s.c → s.acc.getLsbD p = false
  packed : ∀ r k, k < s.rowBytes → r * s.rowBytes + k < s.bi → packedByteOk s r k

/-- Entry (`r`, `c`) of GMEM is what R137 says, as far as the byte it was unpacked from is still known. -/
def unpackedEntryOk (s : State) (r c : Nat) : Prop :=
  ∃ e, Memory.read? s.gmem (r * s.width + c) = some e ∧
    entryEol e = decide (c + 1 = s.width) ∧
    (entrySample e = white false ∨ entrySample e = white true) ∧
    ∀ b, Memory.read? s.bmem (r * s.rowBytes + c / 8) = some b → entrySample e = white (b.getLsbD (bitPos c))

/-- What is true before every element step of a running UNPACK: its input length passed the start check (R131), `acc`
holds the byte of the current column inside a byte (R32), and the entries below `gi` are unpacked (R137). -/
structure State.UnpackOk (s : State) : Prop where
  input : s.blen = s.byteCount
  held : lane s.c ≠ 0 → ∀ b, Memory.read? s.bmem s.bi = some b → s.acc = b
  unpacked : ∀ r c, c < s.width → r * s.width + c < s.gi → unpackedEntryOk s r c

/-- The invariant of the machine: all of the above, the last three while an operation runs. -/
structure State.Inv (s : State) : Prop where
  widths : s.WidthsOk
  memory : s.MemoryOk
  status : s.StatusOk
  cursor : s.status.busy = true → s.CursorOk
  pack : s.status.busy = true → s.opl = .pack → s.PackOk
  unpack : s.status.busy = true → s.opl = .unpack → s.UnpackOk

/-- GMEM holds a well-formed `H`-row, `W`-column grid: every entry known, `eol = 1` exactly at the last column (R86). -/
def State.GridOk (s : State) : Prop :=
  ∀ r c, r < s.height → c < s.width →
    ∃ e, Memory.read? s.gmem (r * s.width + c) = some e ∧ entryEol e = decide (c + 1 = s.width)

/-! ### Who moved -/

/-- The move `m` is the host transaction `HostWrite(sp, i, v)`, in one form or the other (20_memory.md R50, R51). -/
def Move.Writes (cfg : Config) (m : Move) (sp : Space) (i : Nat) (v : Word) : Prop :=
  m = .hostWrite sp i v ∨ ∃ addr, resolve cfg addr = some (sp, i) ∧ m = .flat ⟨.write, addr, 32, v⟩

/-- The next move is the host transaction `HostWrite(sp, i, v)`. -/
def State.NextWrites (s : State) (sp : Space) (i : Nat) (v : Word) : Prop :=
  ∃ m ms, s.pending = m :: ms ∧ m.Writes s.cfg sp i v

/-- The next move is a command the block accepts: `OP` is PACK or UNPACK, while idle (30_encoding.md R81). -/
def State.NextIsCommand (s : State) : Prop :=
  s.status.busy = false ∧ ∃ v : Word, (v &&& 0x3#32 = 0x1#32 ∨ v &&& 0x3#32 = 0x2#32) ∧ s.NextWrites .reg 0 v

/-- The next move is an element step (00_scope.md R11). -/
def State.NextIsElementStep (s : State) : Prop :=
  s.status.busy = true ∧ (s.pending = [] ∨ ∃ ms, s.pending = .block :: ms)

/-- The next move is a reset or a power-up (70_reset_and_hazards.md R200, R201). -/
def State.NextIsReset (s : State) : Prop := ∃ ms, s.pending = .reset :: ms ∨ s.pending = .powerUp :: ms

end Sys2Proof.Machine
end

