-- ==== Sys2Proof/Certificates/Slice0/Obligations.lean ====
section
/-! DEFINITION. The statements about the model, for the provers. Each docstring names the rule of spec/ it formalises, or
the sections it rests on where the rule is one the spec derives, or where the statement rests on a choice of the model. -/

open Sys2Proof Sys2Proof.Machine

/-! ### Encoding and decoding -/

/-- 30_encoding.md section 1: decoding an encoded command gives it back, with bits 31:2, which the model keeps in the
command (its choice, log 12), at every value. -/
def Obligations.DecodeInvertsEncode : Prop :=
  ∀ i : Instr, i.wellFormed = true → decode (encode i) = i

/-- 30_encoding.md section 1: every command word has one meaning. That encoding its decoding gives it back bit for bit is
the model's choice (log 12): R80 says only that bits 31:2 are ignored and not stored, and the model's command keeps them. -/
def Obligations.EncodeInvertsDecode : Prop :=
  ∀ w : Word, encode (decode w) = w

/-- 30_encoding.md section 1: a word selects a command exactly when `v & mask = match`. -/
def Obligations.MaskAndMatchSelectTheCommand : Prop :=
  ∀ w : Word,
    ((∃ g, decode w = .pack g) ↔ w &&& 0x3#32 = 0x1#32) ∧
    ((∃ g, decode w = .unpack g) ↔ w &&& 0x3#32 = 0x2#32) ∧
    ((∃ g, decode w = .rsv0 g) ↔ w &&& 0x3#32 = 0x0#32) ∧
    ((∃ g, decode w = .rsv3 g) ↔ w &&& 0x3#32 = 0x3#32)

/-- 30_encoding.md section 1: bits 31:2 of a command word change nothing of what it does. -/
def Obligations.IgnoredBitsChangeNothing : Prop :=
  ∀ (w w' : Word) (s : State), w &&& 0x3#32 = w' &&& 0x3#32 → exec (decode w) s = exec (decode w') s

/-- 30_encoding.md section 1: command words written out, each with its command. That the command keeps bits 31:2 is the
model's choice (log 12). -/
def Obligations.CommandWordsDecode : Prop :=
  decode 0x00000001#32 = .pack 0#30 ∧ decode 0xFFFFFFFD#32 = .pack 0x3FFFFFFF#30 ∧
  decode 0x00000002#32 = .unpack 0#30 ∧ decode 0x80000002#32 = .unpack 0x20000000#30 ∧
  decode 0x00000000#32 = .rsv0 0#30 ∧ decode 0xFFFFFFFC#32 = .rsv0 0x3FFFFFFF#30 ∧
  decode 0x00000003#32 = .rsv3 0#30 ∧ decode 0x00000007#32 = .rsv3 1#30

/-- 20_memory.md section 1, 30_encoding.md section 1: when the next move is `HostWrite(REG, 0, w)`, the step is exec of the
command `w` decodes to, at the state with that move taken off the schedule (log 1), and nothing else. -/
def Obligations.StepRunsTheDecodedCommand : Prop :=
  ∀ (s : State) (w : Word) (ms : List Move), s.pending = .hostWrite .reg 0 w :: ms →
    step s = exec (decode w) (s.setPending ms)

/-- 30_encoding.md section 1 (log 13): a command word placed as the next move runs, in every state, exactly the command
the decoder reads from it. -/
def Obligations.PlacedCommandRunsNext : Prop :=
  ∀ (s : State) (nbits w : Nat) (i : Instr), decodeTableWord nbits w = some i →
    step (s.withFetchWord nbits w) = exec i s

/-! ### Commands -/

/-- R83: the reserved encodings are no-operations in every state, whatever bits 31:2 hold. -/
def Obligations.ReservedCommandsDoNothing : Prop :=
  (∀ (s : State) (g : BitVec 30), exec (.rsv0 g) s = .next s ∧ exec (.rsv3 g) s = .next s) ∧
  ∀ (s : State) (w : Word), w &&& 0x3#32 = 0x0#32 ∨ w &&& 0x3#32 = 0x3#32 → exec (decode w) s = .next s

/-- 41_packer.md section 1 (R111), 30_encoding.md section 1, 60_exceptions.md section 2: the start check of PACK while idle:
the dimensions first, then the number of entries, and otherwise the operation starts. In the two error cases no entry has
been read and no byte written: both memories and the count of free values are as before. That the hidden registers, which
are then idle, are as before as well is the model's reading (log 16); R33 and U6 leave them to any value. -/
def Obligations.PackStartCheckInOrder : Prop :=
  ∀ (s : State) (g : BitVec 30), s.status.busy = false →
    exec (.pack g) s = .next (
      if s.width = 0 ∨ s.height = 0 then { s with blen := 0, status := ⟨false, true, .invalidInput⟩ }
      else if s.glen ≠ s.width * s.height then { s with blen := 0, status := ⟨false, true, .invalidInput⟩ }
      else { s with status := ⟨true, false, .noError⟩, opl := .pack, r := 0, c := 0, gi := 0, bi := 0, acc := 0#8 })

/-- 42_unpacker.md section 1 (R131), 30_encoding.md section 1, 60_exceptions.md section 2: the start check of UNPACK while
idle: the dimensions first, then the number of bytes, and otherwise the operation starts. In the two error cases no byte has
been read and no entry written. That the hidden registers, which are then idle, are as before as well is the model's reading
(log 16); R33 and U6 leave them to any value. -/
def Obligations.UnpackStartCheckInOrder : Prop :=
  ∀ (s : State) (g : BitVec 30), s.status.busy = false →
    exec (.unpack g) s = .next (
      if s.width = 0 ∨ s.height = 0 then { s with glen := 0, status := ⟨false, true, .invalidInput⟩ }
      else if s.blen ≠ s.height * ((s.width + 7) / 8) then { s with glen := 0, status := ⟨false, true, .lengthMismatch⟩ }
      else { s with status := ⟨true, false, .noError⟩, opl := .unpack, r := 0, c := 0, gi := 0, bi := 0, acc := 0#8 })

/-- 30_encoding.md section 1, 41_packer.md section 1: PACK starts in every idle state whose dimensions are positive and
whose entry count is `W * H`. -/
def Obligations.PackStarts : Prop :=
  ∀ (s : State) (g : BitVec 30), s.status.busy = false → 0 < s.width → 0 < s.height → s.glen = s.width * s.height →
    exec (.pack g) s = .next
      { s with status := ⟨true, false, .noError⟩, opl := .pack, r := 0, c := 0, gi := 0, bi := 0, acc := 0#8 }

/-- 30_encoding.md section 1, 42_unpacker.md section 1: UNPACK starts in every idle state whose dimensions are positive
and whose byte count is `H * ceil(W / 8)`. -/
def Obligations.UnpackStarts : Prop :=
  ∀ (s : State) (g : BitVec 30), s.status.busy = false → 0 < s.width → 0 < s.height →
    s.blen = s.height * ((s.width + 7) / 8) →
    exec (.unpack g) s = .next
      { s with status := ⟨true, false, .noError⟩, opl := .unpack, r := 0, c := 0, gi := 0, bi := 0, acc := 0#8 }

/-- 30_encoding.md section 1, 20_memory.md section 1: a command written while BUSY is ignored, whatever its OP. -/
def Obligations.CommandWhileBusyIsIgnored : Prop :=
  ∀ (i : Instr) (s : State), s.status.busy = true → exec i s = .next s

/-- 20_memory.md section 4, 60_exceptions.md section 2: the frame of every command. It writes only STATUS, the hidden
registers `OPL`, `r`, `c`, `gi`, `bi`, `acc` (named by R81 (4)) and, with 0, its output length register (R176). -/
def Obligations.CommandFrame : Prop :=
  ∀ (i : Instr) (s t : State), exec i s = .next t →
    t.cfg = s.cfg ∧ t.width = s.width ∧ t.height = s.height ∧
    (∀ a, Memory.read? t.gmem a = Memory.read? s.gmem a) ∧ (∀ a, Memory.read? t.bmem a = Memory.read? s.bmem a) ∧
    t.pending = s.pending ∧ t.replies = s.replies ∧ t.draws = s.draws ∧
    ((∃ g, i = .pack g) → t.glen = s.glen ∧ (t.blen = s.blen ∨ t.blen = 0)) ∧
    ((∃ g, i = .unpack g) → t.blen = s.blen ∧ (t.glen = s.glen ∨ t.glen = 0)) ∧
    ((∃ g, i = .rsv0 g ∨ i = .rsv3 g) → t = s)

/-- 10_state.md section 7: nothing the hidden registers or the STATUS of an earlier operation held reaches the operation a
command starts. -/
def Obligations.NothingLeftBehindReachesAnOperation : Prop :=
  ∀ (s t : State) (i : Instr) (o : Operation) (r c gi bi : Nat) (acc : Byte) (st : Status),
    s.status.busy = false → st.busy = false → exec i s = .next t → t.status.busy = true →
    exec i { s with opl := o, r := r, c := c, gi := gi, bi := bi, acc := acc, status := st } = .next t

/-! ### Element steps -/

/-- R112: the element step of PACK, as the block's turn. `e` is the entry at `gi`, or the free value drawn where that
entry is unspecified (R203). The row check comes first; then the pixel's bit joins `acc`, the byte is written where it
ends, the indices and the cursor advance, and after the last pixel the operation completes. Nothing else is written. -/
def Obligations.PackElementStep : Prop :=
  ∀ (s : State) (e : Entry) (d : Nat), s.Inv → s.pending = [] → s.status.busy = true → s.opl = .pack →
    ((Memory.read? s.gmem s.gi = some e ∧ d = s.draws) ∨
      (Memory.read? s.gmem s.gi = none ∧ e = (Config.freeWord s.draws).setWidth 9 ∧ d = s.draws + 1)) →
    (e.getLsbD 8 ≠ decide (s.c = s.width - 1) →
      step s = .next { s with blen := 0, status := ⟨false, true, .invalidInput⟩, draws := d }) ∧
    (e.getLsbD 8 = decide (s.c = s.width - 1) →
      ∃ (t : State) (a : Byte), step s = .next t ∧
        (∀ p < 8, a.getLsbD p = if p = 7 - s.c % 8 then decide (e.setWidth 8 ≠ 0#8) else s.acc.getLsbD p) ∧
        t.gi = s.gi + 1 ∧ t.draws = d ∧
        (if s.c % 8 = 7 ∨ s.c = s.width - 1 then
          t.bi = s.bi + 1 ∧ t.acc = 0#8 ∧ Memory.read? t.bmem s.bi = some a ∧
            ∀ k, k ≠ s.bi → Memory.read? t.bmem k = Memory.read? s.bmem k
        else t.bi = s.bi ∧ t.acc = a ∧ ∀ k, Memory.read? t.bmem k = Memory.read? s.bmem k) ∧
        (if s.c ≠ s.width - 1 then t.r = s.r ∧ t.c = s.c + 1 ∧ t.status = s.status ∧ t.blen = s.blen
        else if s.r + 1 < s.height then t.r = s.r + 1 ∧ t.c = 0 ∧ t.status = s.status ∧ t.blen = s.blen
        else t.r = s.r ∧ t.c = s.c ∧ t.status = ⟨false, true, .noError⟩ ∧ t.blen = t.bi ∧
          t.bi = s.height * ((s.width + 7) / 8)) ∧
        t.cfg = s.cfg ∧ t.width = s.width ∧ t.height = s.height ∧ t.glen = s.glen ∧ t.opl = s.opl ∧
        (∀ k, Memory.read? t.gmem k = Memory.read? s.gmem k) ∧ t.pending = s.pending ∧ t.replies = s.replies)

/-- R132: the element step of UNPACK, as the block's turn. `cur` is the byte it works on: at the first column of a
byte the byte at `bi`, or the free value drawn where that byte is unspecified (R203), otherwise `acc`. The entry written
holds 0xFF or 0x00 and `eol` at the last column. Nothing else is written. -/
def Obligations.UnpackElementStep : Prop :=
  ∀ (s : State) (cur : Byte) (d : Nat), s.Inv → s.pending = [] → s.status.busy = true → s.opl = .unpack →
    ((s.c % 8 = 0 ∧ Memory.read? s.bmem s.bi = some cur ∧ d = s.draws) ∨
      (s.c % 8 = 0 ∧ Memory.read? s.bmem s.bi = none ∧ cur = (Config.freeWord s.draws).setWidth 8 ∧ d = s.draws + 1) ∨
      (s.c % 8 ≠ 0 ∧ cur = s.acc ∧ d = s.draws)) →
    ∃ (t : State) (e : Entry), step s = .next t ∧
      e.getLsbD 8 = decide (s.c = s.width - 1) ∧
      e.setWidth 8 = (if cur.getLsbD (7 - s.c % 8) then 0xFF#8 else 0x00#8) ∧
      Memory.read? t.gmem s.gi = some e ∧ (∀ k, k ≠ s.gi → Memory.read? t.gmem k = Memory.read? s.gmem k) ∧
      t.acc = cur ∧ t.gi = s.gi + 1 ∧ t.draws = d ∧
      t.bi = (if s.c % 8 = 7 ∨ s.c = s.width - 1 then s.bi + 1 else s.bi) ∧
      (if s.c ≠ s.width - 1 then t.r = s.r ∧ t.c = s.c + 1 ∧ t.status = s.status ∧ t.glen = s.glen
      else if s.r + 1 < s.height then t.r = s.r + 1 ∧ t.c = 0 ∧ t.status = s.status ∧ t.glen = s.glen
      else t.r = s.r ∧ t.c = s.c ∧ t.status = ⟨false, true, .noError⟩ ∧ t.glen = t.gi ∧ t.gi = s.width * s.height) ∧
      t.cfg = s.cfg ∧ t.width = s.width ∧ t.height = s.height ∧ t.blen = s.blen ∧ t.opl = s.opl ∧
      (∀ k, Memory.read? t.bmem k = Memory.read? s.bmem k) ∧ t.pending = s.pending ∧ t.replies = s.replies

/-- 00_scope.md section 5 (log 1): a turn the schedule gives the block is the turn it takes when nothing is scheduled. -/
def Obligations.ScheduledTurnIsTheBlocksTurn : Prop :=
  ∀ (s t : State) (ms : List Move), s.pending = .block :: ms → step { s with pending := [] } = .next t →
    step s = .next { t with pending := ms }

/-- 70_reset_and_hazards.md section 3, 41_packer.md and 42_unpacker.md section 2: while BUSY the block's turn is always
enabled; it either moves on by exactly one entry or ends the operation, and UNPACK never ends with an error. -/
def Obligations.ElementStepMakesProgress : Prop :=
  ∀ s : State, s.Inv → s.status.busy = true → (s.pending = [] ∨ ∃ ms, s.pending = .block :: ms) →
    ∃ t, step s = .next t ∧
      ((t.status.busy = true ∧ t.gi = s.gi + 1 ∧ t.gi < s.width * s.height) ∨
        (t.status.busy = false ∧ t.status.done = true ∧ t.status.err = .noError ∧ s.gi + 1 = s.width * s.height) ∨
        (t.status = ⟨false, true, .invalidInput⟩ ∧ s.opl = .pack))

/-! ### Invariants -/

/-- 10_state.md section 4: the invariants of STATUS are kept by every step, from every state that meets them. -/
def Obligations.StepKeepsStatusInvariants : Prop :=
  ∀ s t : State, s.StatusOk → step s = .next t → t.StatusOk

/-- 10_state.md section 1, 43_codec_laws.md section 3: every register keeps a number of its width, and the parameters
never change. -/
def Obligations.StepKeepsRegisterWidths : Prop :=
  ∀ s t : State, s.WidthsOk → step s = .next t → t.WidthsOk ∧ t.cfg = s.cfg

/-- 20_memory.md section 1: both memories keep their canonical form and hold nothing outside their spaces. -/
def Obligations.StepKeepsMemoryCanonical : Prop :=
  ∀ s t : State, s.MemoryOk → step s = .next t → t.MemoryOk

/-- 10_state.md sections 3, 4 and 6, 41_packer.md and 42_unpacker.md section 2: the whole invariant is kept by every step,
from every state that meets it: widths, canonical memories, STATUS, the cursor identities of R25 and R27, the contents of
`acc` of R32, and everything packed or unpacked so far being what R115 and R137 say. -/
def Obligations.StepKeepsInvariant : Prop :=
  ∀ s t : State, s.Inv → step s = .next t → t.Inv

/-- 10_state.md section 10, 70_reset_and_hazards.md section 1: the state after power-up has every register at 0 and nothing
known of either memory, and it meets the invariant. That its configuration is well-formed is a clause about the model's
choices (log 5). -/
def Obligations.ResetStateMeetsInvariant : Prop :=
  State.reset.Inv ∧ State.reset.cfg.wellFormed = true ∧ State.reset.status = ⟨false, false, .noError⟩ ∧
    State.reset.width = 0 ∧ State.reset.height = 0 ∧ State.reset.glen = 0 ∧ State.reset.blen = 0 ∧
    State.reset.opl = .pack ∧ State.reset.r = 0 ∧ State.reset.c = 0 ∧ State.reset.gi = 0 ∧ State.reset.bi = 0 ∧
    State.reset.acc = 0#8 ∧ regRead State.reset 0 = 0#32 ∧
    (∀ k, Memory.read? State.reset.gmem k = none) ∧ (∀ k, Memory.read? State.reset.bmem k = none)

/-- 41_packer.md section 2, 42_unpacker.md section 2: every index the block uses is inside its memory. -/
def Obligations.BlockIndicesAreInRange : Prop :=
  ∀ s : State, s.Inv → s.status.busy = true →
    s.gi < s.width * s.height ∧ s.width * s.height ≤ gcap s.cfg ∧
    s.bi < s.height * ((s.width + 7) / 8) ∧ s.height * ((s.width + 7) / 8) ≤ bcap s.cfg

/-- 10_state.md section 4, 60_exceptions.md section 5: STATUS is written only by the acceptance of a command, by an element
step that completes the operation, and by reset; DONE and ERR stay until then. -/
def Obligations.OnlyTheseWriteStatus : Prop :=
  ∀ s t : State, step s = .next t → t.status ≠ s.status →
    s.NextIsCommand ∨
    (s.NextIsElementStep ∧ t.status.busy = false ∧ t.status.done = true) ∨
    (s.NextIsReset ∧ t.status = ⟨false, false, .noError⟩)

/-- 10_state.md sections 3, 5 and 6: the cursor, the indices, the accumulator and OPL are written only by a command that
passes its start check, by an element step, and by reset. -/
def Obligations.OnlyTheseMoveTheCursor : Prop :=
  ∀ s t : State, step s = .next t →
    ¬ (t.opl = s.opl ∧ t.r = s.r ∧ t.c = s.c ∧ t.gi = s.gi ∧ t.bi = s.bi ∧ t.acc = s.acc) →
    (s.NextIsCommand ∧ t.status.busy = true ∧ t.r = 0 ∧ t.c = 0 ∧ t.gi = 0 ∧ t.bi = 0 ∧ t.acc = 0#8) ∨
    (s.NextIsElementStep ∧ t.opl = s.opl) ∨
    (s.NextIsReset ∧ t.opl = .pack ∧ t.r = 0 ∧ t.c = 0 ∧ t.gi = 0 ∧ t.bi = 0 ∧ t.acc = 0#8)

/-- 10_state.md section 2, 20_memory.md sections 1 and 4: an operand register is written only by a host write of that
register while idle, by reset, or, if it is the output length register of the operation, BLEN of PACK and GLEN of UNPACK, by
a command that fails its start check or an element step that completes. -/
def Obligations.OnlyTheseWriteOperandRegisters : Prop :=
  ∀ (s t : State) (n : OperandReg), step s = .next t → t.x n ≠ s.x n →
    (s.status.busy = false ∧ ∃ v,
      s.NextWrites .reg (match n with | .width => 2 | .height => 3 | .glen => 4 | .blen => 5) v) ∨
    (s.status.busy = false ∧
      (∃ v : Word, s.NextWrites .reg 0 v ∧
        ((v &&& 0x3#32 = 0x1#32 ∧ n = .blen) ∨ (v &&& 0x3#32 = 0x2#32 ∧ n = .glen))) ∧
      t.x n = 0 ∧ t.status.busy = false ∧ t.status.err ≠ .noError) ∨
    (s.NextIsElementStep ∧ n = outReg s.opl ∧ t.status.busy = false ∧ t.status.done = true) ∨
    (s.NextIsReset ∧ t.x n = 0)

/-- 20_memory.md sections 1 and 4, 70_reset_and_hazards.md section 1: an element of GMEM changes only by a host write of
that element while idle, by the element step of UNPACK at that index, by a reset that interrupts an UNPACK, and by
power-up; an element of BMEM likewise, with PACK. -/
def Obligations.OnlyTheseWriteMemory : Prop :=
  ∀ (s t : State) (k : Nat), step s = .next t →
    (Memory.read? t.gmem k ≠ Memory.read? s.gmem k →
      (s.status.busy = false ∧ ∃ v, s.NextWrites .gmem k v) ∨ (s.NextIsElementStep ∧ s.opl = .unpack ∧ k = s.gi) ∨
      (s.NextIsReset ∧ Memory.read? t.gmem k = none ∧
        ((s.status.busy = true ∧ s.opl = .unpack) ∨ ∃ ms, s.pending = .powerUp :: ms))) ∧
    (Memory.read? t.bmem k ≠ Memory.read? s.bmem k →
      (s.status.busy = false ∧ ∃ v, s.NextWrites .bmem k v) ∨ (s.NextIsElementStep ∧ s.opl = .pack ∧ k = s.bi) ∨
      (s.NextIsReset ∧ Memory.read? t.bmem k = none ∧
        ((s.status.busy = true ∧ s.opl = .pack) ∨ ∃ ms, s.pending = .powerUp :: ms)))

/-! ### Results -/

/-- 41_packer.md section 2: in the step in which a PACK over known entries completes without error, every byte of the
result is the sum of R115, and BLEN is `H * RB`. -/
def Obligations.PackResultInClosedForm : Prop :=
  ∀ s t : State, s.Inv → s.pending = [] → s.status.busy = true → s.opl = .pack → s.GridOk →
    step s = .next t → t.status.busy = false →
    t.status = ⟨false, true, .noError⟩ ∧ t.blen = t.height * ((t.width + 7) / 8) ∧
    ∀ r k, r < t.height → k < (t.width + 7) / 8 →
      ∃ b, Memory.read? t.bmem (r * ((t.width + 7) / 8) + k) = some b ∧
        b.toNat = ((List.range 8).map fun j =>
          if 8 * k + j < t.width then
            (if ((Memory.read? t.gmem (r * t.width + (8 * k + j))).getD 0#9).setWidth 8 = 0#8 then 0 else 2 ^ (7 - j))
          else 0).sum

/-- 42_unpacker.md section 2: in the step in which an UNPACK completes, every entry of the result whose byte is known is
what R137 says, and GLEN is `W * H`. -/
def Obligations.UnpackResultInClosedForm : Prop :=
  ∀ s t : State, s.Inv → s.pending = [] → s.status.busy = true → s.opl = .unpack →
    step s = .next t → t.status.busy = false →
    t.status = ⟨false, true, .noError⟩ ∧ t.glen = t.width * t.height ∧
    ∀ r c b, r < t.height → c < t.width →
      Memory.read? t.bmem (r * ((t.width + 7) / 8) + c / 8) = some b →
      ∃ e, Memory.read? t.gmem (r * t.width + c) = some e ∧ e.getLsbD 8 = decide (c = t.width - 1) ∧
        e.setWidth 8 = (if b.getLsbD (7 - c % 8) then 0xFF#8 else 0x00#8)

/-- 43_codec_laws.md section 1, 41_packer.md sections 1 and 2, with nothing else scheduled (log 1): a PACK whose entries,
cut after every `eol`, are a grid the pure function accepts runs for exactly `W * H` element steps and leaves the pure
function's bytes as its result, and nothing else changed. -/
def Obligations.PackOperationComputesPack : Prop :=
  ∀ (s : State) (g : BitVec 30) (es : List Entry) (p : List Byte),
    s.Inv → s.status.busy = false → s.pending = [] → Memory.prefix? s.gmem s.glen = some es →
    (cutRows es).2 = [] → Codec.pack (cutRows es).1 s.width s.height = .ok p →
    ∃ t u : State, exec (.pack g) s = .next t ∧ Host.Core.run core (s.width * s.height) t = .next u ∧
      (∀ n < s.width * s.height, ∃ v : State, Host.Core.run core n t = .next v ∧ v.status = ⟨true, false, .noError⟩) ∧
      u.status = ⟨false, true, .noError⟩ ∧ u.blen = s.height * ((s.width + 7) / 8) ∧
      Memory.prefix? u.bmem u.blen = some p ∧
      (∀ k, u.blen ≤ k → Memory.read? u.bmem k = Memory.read? s.bmem k) ∧
      u.gmem = s.gmem ∧ u.glen = s.glen ∧ u.width = s.width ∧ u.height = s.height ∧ u.cfg = s.cfg ∧
      u.pending = [] ∧ u.replies = s.replies ∧ u.draws = s.draws

/-- 43_codec_laws.md section 1, 42_unpacker.md sections 1 and 2, with nothing else scheduled (log 1): an UNPACK of bytes
the pure function accepts runs for exactly `W * H` element steps and leaves the image of the pure function's grid as its
result, and nothing else changed. -/
def Obligations.UnpackOperationComputesUnpack : Prop :=
  ∀ (s : State) (g : BitVec 30) (b : List Byte) (rows : List (List Byte)),
    s.Inv → s.status.busy = false → s.pending = [] → Memory.prefix? s.bmem s.blen = some b →
    Codec.unpack b s.width s.height = .ok rows →
    ∃ t u : State, exec (.unpack g) s = .next t ∧ Host.Core.run core (s.width * s.height) t = .next u ∧
      (∀ n < s.width * s.height, ∃ v : State, Host.Core.run core n t = .next v ∧ v.status = ⟨true, false, .noError⟩) ∧
      u.status = ⟨false, true, .noError⟩ ∧ u.glen = s.width * s.height ∧
      Memory.prefix? u.gmem u.glen = some (gridImage rows) ∧
      (∀ k, u.glen ≤ k → Memory.read? u.gmem k = Memory.read? s.gmem k) ∧
      u.bmem = s.bmem ∧ u.blen = s.blen ∧ u.width = s.width ∧ u.height = s.height ∧ u.cfg = s.cfg ∧
      u.pending = [] ∧ u.replies = s.replies ∧ u.draws = s.draws

/-- 41_packer.md sections 1 and 2, 60_exceptions.md section 2, with nothing else scheduled (log 1): a PACK whose first
entry with a wrong `eol` has index `i` runs for exactly `i + 1` element steps and ends with InvalidInput and BLEN 0; the
bytes completed before it hold the values of R115, every other byte and all of GMEM are unchanged. -/
def Obligations.PackOperationStopsAtRaggedRow : Prop :=
  ∀ (s : State) (g : BitVec 30) (es : List Entry) (i : Nat),
    s.Inv → s.status.busy = false → s.pending = [] → Memory.prefix? s.gmem s.glen = some es →
    0 < s.width → 0 < s.height → s.glen = s.width * s.height → i < s.glen →
    (es.getD i 0#9).getLsbD 8 ≠ decide (i % s.width = s.width - 1) →
    (∀ j < i, (es.getD j 0#9).getLsbD 8 = decide (j % s.width = s.width - 1)) →
    ∃ t u : State, exec (.pack g) s = .next t ∧ Host.Core.run core (i + 1) t = .next u ∧
      (∀ n ≤ i, ∃ v : State, Host.Core.run core n t = .next v ∧ v.status = ⟨true, false, .noError⟩) ∧
      u.status = ⟨false, true, .invalidInput⟩ ∧ u.blen = 0 ∧
      (∀ r k, k < (s.width + 7) / 8 →
        Memory.read? u.bmem (r * ((s.width + 7) / 8) + k) =
          if r * ((s.width + 7) / 8) + k < i / s.width * ((s.width + 7) / 8) + i % s.width / 8 then
            some (packByte s.width (fun c => (es.getD (r * s.width + c) 0#9).setWidth 8) k)
          else Memory.read? s.bmem (r * ((s.width + 7) / 8) + k)) ∧
      u.gmem = s.gmem ∧ u.glen = s.glen ∧ u.width = s.width ∧ u.height = s.height

/-- 70_reset_and_hazards.md section 3, with nothing else scheduled (log 1): from every state of a running operation, also
over unspecified inputs, the operation completes after at most as many element steps as entries are left. -/
def Obligations.EveryOperationCompletes : Prop :=
  ∀ s : State, s.Inv → s.status.busy = true → s.pending = [] →
    ∃ (n : Nat) (u : State), n ≤ s.width * s.height - s.gi ∧ Host.Core.run core n s = .next u ∧
      u.status.busy = false ∧ u.status.done = true

/-- 43_codec_laws.md section 2, with nothing else scheduled (log 1): PACK and then UNPACK, with nothing written between
them, leave every row mark as it was and every sample 0x00 where it was 0 and 0xFF where it was not. -/
def Obligations.PackThenUnpackRoundTrips : Prop :=
  ∀ (s : State) (g h : BitVec 30) (rows : List (List Byte)),
    s.Inv → s.status.busy = false → s.pending = [] → 0 < s.width → 0 < s.height →
    rectangular rows s.width s.height = true → s.glen = s.width * s.height →
    Memory.prefix? s.gmem s.glen = some (gridImage rows) →
    ∃ t u t' u' : State, exec (.pack g) s = .next t ∧ Host.Core.run core (s.width * s.height) t = .next u ∧
      exec (.unpack h) u = .next t' ∧ Host.Core.run core (s.width * s.height) t' = .next u' ∧
      u'.status = ⟨false, true, .noError⟩ ∧ u'.glen = s.glen ∧
      Memory.prefix? u'.gmem u'.glen =
        some (gridImage (rows.map fun row => row.map fun p => if p = 0#8 then 0x00#8 else 0xFF#8))

/-- 43_codec_laws.md section 2, with nothing else scheduled (log 1): two PACK operations started with equal dimensions,
equal GLEN and equal known entries end after the same number of element steps with equal BLEN, equal result bytes and equal
STATUS, whatever ran before. -/
def Obligations.PackDependsOnItsArgumentsOnly : Prop :=
  ∀ (s s' : State) (g g' : BitVec 30) (es : List Entry),
    s.Inv → s'.Inv → s.status.busy = false → s'.status.busy = false → s.pending = [] → s'.pending = [] →
    s.width = s'.width → s.height = s'.height → s.glen = s'.glen →
    Memory.prefix? s.gmem s.glen = some es → Memory.prefix? s'.gmem s'.glen = some es →
    ∃ (n : Nat) (t t' u u' : State), exec (.pack g) s = .next t ∧ exec (.pack g') s' = .next t' ∧
      Host.Core.run core n t = .next u ∧ Host.Core.run core n t' = .next u' ∧
      (∀ k < n, ∃ v v' : State, Host.Core.run core k t = .next v ∧ v.status.busy = true ∧
        Host.Core.run core k t' = .next v' ∧ v'.status.busy = true) ∧
      u.status.busy = false ∧ u.status = u'.status ∧ u.blen = u'.blen ∧
      Memory.prefix? u.bmem u.blen = Memory.prefix? u'.bmem u'.blen

/-- 20_memory.md sections 1 and 5 (log 1, log 3): whatever host transactions are scheduled among the turns of an operation
that runs on known inputs, as long as the operation is still running at their end, they change nothing of it: the state
reached differs from that of the turns alone only in the replies and the count of draws. -/
def Obligations.HostCannotDisturbARunningOperation : Prop :=
  ∀ (s v : State) (ms : List Move),
    s.Inv → s.status.busy = true → (s.opl = .pack → s.GridOk) →
    (s.opl = .unpack → ∀ k, k < s.blen → ∃ b, Memory.read? s.bmem k = some b) →
    (∀ m ∈ ms, m = .block ∨ (∃ sp i w, m = .hostWrite sp i w) ∨ (∃ sp i, m = .hostRead sp i)) →
    Host.Core.run core (ms.count .block) { s with pending := [] } = .next v → v.status.busy = true →
    ∃ u : State, Host.Core.run core ms.length { s with pending := ms } = .next u ∧
      u = { v with replies := u.replies, draws := u.draws }

/-! ### The host port -/

/-- R52: host transactions while idle, with `m` the rest of the schedule: each row of the table. A read of an element that
holds no known value answers the free value drawn for it (R203). No read changes anything but the replies and, then, the
count of draws. -/
def Obligations.IdleHostTransactions : Prop :=
  ∀ (s : State) (m : List Move) (v : Word) (i : Nat), s.status.busy = false →
    let q := { s with pending := m }
    let on (mv : Move) := step { s with pending := mv :: m }
    on (.hostWrite .reg 0 v) = exec (decode v) q ∧
    on (.hostWrite .reg 1 v) = .next q ∧
    on (.hostWrite .reg 2 v) = .next { q with width := v.toNat % 2 ^ s.cfg.dimw } ∧
    on (.hostWrite .reg 3 v) = .next { q with height := v.toNat % 2 ^ s.cfg.dimw } ∧
    on (.hostWrite .reg 4 v) = .next { q with glen := v.toNat % 2 ^ (2 * s.cfg.dimw) } ∧
    on (.hostWrite .reg 5 v) = .next { q with blen := v.toNat % 2 ^ (2 * s.cfg.dimw) } ∧
    on (.hostRead .reg 0) = .next { q with replies := 0#32 :: s.replies } ∧
    on (.hostRead .reg 1) = .next { q with replies := statusWord s.status :: s.replies } ∧
    on (.hostRead .reg 2) = .next { q with replies := BitVec.ofNat 32 s.width :: s.replies } ∧
    on (.hostRead .reg 3) = .next { q with replies := BitVec.ofNat 32 s.height :: s.replies } ∧
    on (.hostRead .reg 4) = .next { q with replies := BitVec.ofNat 32 s.glen :: s.replies } ∧
    on (.hostRead .reg 5) = .next { q with replies := BitVec.ofNat 32 s.blen :: s.replies } ∧
    (i < gcap s.cfg → ∃ t, on (.hostWrite .gmem i v) = .next { q with gmem := t } ∧
      ∀ k, Memory.read? t k = if k = i then some (v.setWidth 9) else Memory.read? s.gmem k) ∧
    (∀ e, i < gcap s.cfg → Memory.read? s.gmem i = some e →
      on (.hostRead .gmem i) = .next { q with replies := e.setWidth 32 :: s.replies }) ∧
    (i < gcap s.cfg → Memory.read? s.gmem i = none →
      on (.hostRead .gmem i) = .next { q with
        replies := ((Config.freeWord s.draws).setWidth 9).setWidth 32 :: s.replies, draws := s.draws + 1 }) ∧
    (i < bcap s.cfg → ∃ t, on (.hostWrite .bmem i v) = .next { q with bmem := t } ∧
      ∀ k, Memory.read? t k = if k = i then some (v.setWidth 8) else Memory.read? s.bmem k) ∧
    (∀ b, i < bcap s.cfg → Memory.read? s.bmem i = some b →
      on (.hostRead .bmem i) = .next { q with replies := b.setWidth 32 :: s.replies }) ∧
    (i < bcap s.cfg → Memory.read? s.bmem i = none →
      on (.hostRead .bmem i) = .next { q with
        replies := ((Config.freeWord s.draws).setWidth 8).setWidth 32 :: s.replies, draws := s.draws + 1 })

/-- R53: host transactions while BUSY, with `m` the rest of the schedule: every write is lost, reads of REG are served,
a read of a memory returns an unspecified word and disturbs nothing, and the length registers keep their values until
the operation completes. -/
def Obligations.BusyHostTransactions : Prop :=
  ∀ (s : State) (m : List Move), s.StatusOk → s.status.busy = true →
    let q := { s with pending := m }
    let on (mv : Move) := step { s with pending := mv :: m }
    (∀ sp i v, on (.hostWrite sp i v) = .next q) ∧
    on (.hostRead .reg 0) = .next { q with replies := 0#32 :: s.replies } ∧
    on (.hostRead .reg 1) = .next { q with replies := 0x00000001#32 :: s.replies } ∧
    on (.hostRead .reg 2) = .next { q with replies := BitVec.ofNat 32 s.width :: s.replies } ∧
    on (.hostRead .reg 3) = .next { q with replies := BitVec.ofNat 32 s.height :: s.replies } ∧
    on (.hostRead .reg 4) = .next { q with replies := BitVec.ofNat 32 s.glen :: s.replies } ∧
    on (.hostRead .reg 5) = .next { q with replies := BitVec.ofNat 32 s.blen :: s.replies } ∧
    (∀ i < gcap s.cfg, on (.hostRead .gmem i) =
      .next { q with replies := Config.freeWord s.draws :: s.replies, draws := s.draws + 1 }) ∧
    (∀ i < bcap s.cfg, on (.hostRead .bmem i) =
      .next { q with replies := Config.freeWord s.draws :: s.replies, draws := s.draws + 1 }) ∧
    (∀ t, on .block = .next t → t.status.busy = true → t.glen = s.glen ∧ t.blen = s.blen)

/-- 20_memory.md section 1: an index outside its space: reads return 0 (of a memory, while idle; log 8), writes are
ignored, and no error is raised. -/
def Obligations.IndicesOutsideASpace : Prop :=
  ∀ (s : State) (m : List Move) (v : Word) (i : Nat),
    let q := { s with pending := m }
    let on (mv : Move) := step { s with pending := mv :: m }
    (6 ≤ i → on (.hostRead .reg i) = .next { q with replies := 0#32 :: s.replies } ∧ on (.hostWrite .reg i v) = .next q) ∧
    (gcap s.cfg ≤ i → on (.hostWrite .gmem i v) = .next q ∧
      (s.status.busy = false → on (.hostRead .gmem i) = .next { q with replies := 0#32 :: s.replies })) ∧
    (bcap s.cfg ≤ i → on (.hostWrite .bmem i v) = .next q ∧
      (s.status.busy = false → on (.hostRead .bmem i) = .next { q with replies := 0#32 :: s.replies }))

/-- R24: the operand registers are four separate registers, at REG indices 2 to 5, and no memory element: a host write
while idle replaces one with the low bits of the word, without any error, and leaves the others and both memories alone; a
write of a memory leaves all four alone; a host read returns the register zero-extended; a write while BUSY is ignored. -/
def Obligations.OperandRegistersAreSeparate : Prop :=
  ∀ (s : State) (m : List Move) (v : Word) (n : OperandReg),
    let k : OperandReg → Nat := fun n => match n with | .width => 2 | .height => 3 | .glen => 4 | .blen => 5
    let bits : OperandReg → Nat := fun n =>
      match n with | .width => s.cfg.dimw | .height => s.cfg.dimw | .glen => 2 * s.cfg.dimw | .blen => 2 * s.cfg.dimw
    (s.status.busy = false → ∃ t, step { s with pending := .hostWrite .reg (k n) v :: m } = .next t ∧
      t.x n = v.toNat % 2 ^ bits n ∧ (∀ n', n' ≠ n → t.x n' = s.x n') ∧ t.status = s.status ∧
      (∀ a, Memory.read? t.gmem a = Memory.read? s.gmem a) ∧ (∀ a, Memory.read? t.bmem a = Memory.read? s.bmem a)) ∧
    (∀ i, ∃ t u, step { s with pending := .hostWrite .gmem i v :: m } = .next t ∧ t.x n = s.x n ∧
      step { s with pending := .hostWrite .bmem i v :: m } = .next u ∧ u.x n = s.x n) ∧
    (∃ t w, step { s with pending := .hostRead .reg (k n) :: m } = .next t ∧ t.replies = w :: s.replies ∧
      (s.x n < 2 ^ 32 → w.toNat = s.x n)) ∧
    (s.status.busy = true → step { s with pending := .hostWrite .reg (k n) v :: m } = .next { s with pending := m })

/-- 30_encoding.md section 2: the status word has BUSY at bit 0, DONE at bit 1, ERR at bits 3:2 and nothing else, and in
a state that meets the invariants of STATUS it is one of five values. -/
def Obligations.StatusWordValues : Prop :=
  ∀ st : Status,
    (statusWord st).getLsbD 0 = st.busy ∧ (statusWord st).getLsbD 1 = st.done ∧
    ((statusWord st).toNat / 4 = match st.err with
      | .noError => 0 | .invalidInput => 1 | .lengthMismatch => 2 | .parseError => 3) ∧
    ∀ s : State, s.status = st → s.StatusOk →
      statusWord st = 0x0#32 ∨ statusWord st = 0x1#32 ∨ statusWord st = 0x2#32 ∨ statusWord st = 0x6#32 ∨
        statusWord st = 0xA#32

/-- 70_reset_and_hazards.md section 2 (log 4): a host read of an element that holds no known value answers a free value,
a fresh one at every read, and leaves the element unspecified. -/
def Obligations.UnwrittenElementReadsFresh : Prop :=
  ∀ (s : State) (i : Nat) (m : List Move), s.status.busy = false → i < gcap s.cfg → Memory.read? s.gmem i = none →
    ∃ t u, step { s with pending := .hostRead .gmem i :: .hostRead .gmem i :: m } = .next t ∧ step t = .next u ∧
      u.replies = ((Config.freeWord (s.draws + 1)).setWidth 9).setWidth 32
        :: ((Config.freeWord s.draws).setWidth 9).setWidth 32 :: s.replies ∧
      u.draws = s.draws + 2 ∧ u.gmem = s.gmem ∧ u.bmem = s.bmem ∧ u.status = s.status

/-- 20_memory.md section 1: with a configuration the spec allows, a flat transaction at `base + 4 * i` is the transaction
on element `i` of its space. -/
def Obligations.FlatBindingIsTheSpaceAndIndex : Prop :=
  ∀ (s : State) (sp : Space) (i : Nat) (v : Word) (m : List Move),
    s.cfg.wellFormed = true → i < spaceSize s.cfg sp →
    step { s with pending := .flat ⟨.write, spaceBase s.cfg sp + 4 * i, 32, v⟩ :: m } =
      step { s with pending := .hostWrite sp i v :: m } ∧
    step { s with pending := .flat ⟨.read, spaceBase s.cfg sp + 4 * i, 32, v⟩ :: m } =
      step { s with pending := .hostRead sp i :: m }

/-- 30_encoding.md section 5 (log 5): with bases the spec allows, the flat transaction a line of the host notation is encoded
as does what the transaction it stands for does; the transaction of every line is that of the table, and so is, with the
default bases, its encoding (of a read, whose encoding has no data, the kind and the address). -/
def Obligations.HostNotationEncodesItsTransactions : Prop :=
  (∀ (s : State) (l : HostLine) (m : List Move), s.cfg.wellFormed = true → l.inRange s.cfg = true →
    step { s with pending := .flat (l.encoding s.cfg) :: m } = step { s with pending := l.transaction :: m }) ∧
  (∀ (n : Word) (i k : Nat) (p : Byte),
    (HostLine.wrReg k n).transaction = .hostWrite .reg k n ∧ (HostLine.rdReg k).transaction = .hostRead .reg k ∧
    (HostLine.wrGmem i n).transaction = .hostWrite .gmem i n ∧ (HostLine.rdGmem i).transaction = .hostRead .gmem i ∧
    (HostLine.wrBmem i n).transaction = .hostWrite .bmem i n ∧ (HostLine.rdBmem i).transaction = .hostRead .bmem i ∧
    HostLine.pack.transaction = .hostWrite .reg 0 0x00000001#32 ∧
    HostLine.unpack.transaction = .hostWrite .reg 0 0x00000002#32 ∧
    HostLine.poll.transaction = .hostRead .reg 1 ∧
    (HostLine.px i p).transaction = .hostWrite .gmem i (p.setWidth 32) ∧
    (HostLine.pxe i p).transaction = .hostWrite .gmem i (0x100#32 + p.setWidth 32)) ∧
  (∀ (n : Word) (i k : Nat) (p : Byte),
    let enc (l : HostLine) := l.encoding .default
    let reads (l : HostLine) (addr : Nat) := (enc l).kind = .read ∧ (enc l).addr = addr ∧ (enc l).bits = 32
    enc (.wrReg 2 n) = ⟨.write, 0x00008, 32, n⟩ ∧ enc (.wrReg 3 n) = ⟨.write, 0x0000C, 32, n⟩ ∧
    enc (.wrReg 4 n) = ⟨.write, 0x00010, 32, n⟩ ∧ enc (.wrReg 5 n) = ⟨.write, 0x00014, 32, n⟩ ∧
    enc (.wrReg 0 n) = ⟨.write, 0x00000, 32, n⟩ ∧ reads (.rdReg k) (4 * k) ∧
    enc (.wrGmem i n) = ⟨.write, 0x40000 + 4 * i, 32, n⟩ ∧ reads (.rdGmem i) (0x40000 + 4 * i) ∧
    enc (.wrBmem i n) = ⟨.write, 0x80000 + 4 * i, 32, n⟩ ∧ reads (.rdBmem i) (0x80000 + 4 * i) ∧
    enc .pack = ⟨.write, 0x00000, 32, 0x00000001#32⟩ ∧ enc .unpack = ⟨.write, 0x00000, 32, 0x00000002#32⟩ ∧
    reads .poll 0x00004 ∧
    enc (.px i p) = ⟨.write, 0x40000 + 4 * i, 32, p.setWidth 32⟩ ∧
    enc (.pxe i p) = ⟨.write, 0x40000 + 4 * i, 32, 0x100#32 + p.setWidth 32⟩)

/-- R55: a flat transaction narrower than a word, or a whole word at an address that is not a multiple of 4, has no meaning
and is refused. -/
def Obligations.MalformedFlatAccessIsRefused : Prop :=
  ∀ (s : State) (a : FlatAccess) (m : List Move), s.pending = .flat a :: m →
    (a.bits < 32 → step s = .refused .notWholeWord) ∧
    (a.bits = 32 → a.addr % 4 ≠ 0 → step s = .refused .misaligned)

/-- 93_implementation_defined.md section 2: nothing stops the machine but a flat transaction without a meaning (U4). -/
def Obligations.EveryMeaningfulMoveAnswers : Prop :=
  ∀ s : State, (∀ mv ms, s.pending = mv :: ms → mv.wellFormed s.cfg = true) → ∃ t, step s = .next t

/-- 00_scope.md section 5, 60_exceptions.md section 8 (log 2): while idle, with nothing scheduled, nothing happens. -/
def Obligations.IdleBlockHasNoStep : Prop :=
  ∀ s : State, s.status.busy = false → s.pending = [] → step s = .next s

/-! ### Reset -/

/-- R200: the reset event, in any state, with `m` the rest of the schedule: every register 0; while idle both memories
keep their contents; while an operation runs its input memory keeps its contents and its output memory becomes
unspecified in every element. -/
def Obligations.ResetEvent : Prop :=
  ∀ (s : State) (m : List Move), ∃ t, step { s with pending := .reset :: m } = .next t ∧
    t.width = 0 ∧ t.height = 0 ∧ t.glen = 0 ∧ t.blen = 0 ∧ t.status = ⟨false, false, .noError⟩ ∧
    t.opl = .pack ∧ t.r = 0 ∧ t.c = 0 ∧ t.gi = 0 ∧ t.bi = 0 ∧ t.acc = 0#8 ∧
    (s.status.busy = false → t.gmem = s.gmem ∧ t.bmem = s.bmem) ∧
    (s.status.busy = true → s.opl = .pack → t.gmem = s.gmem ∧ ∀ k, Memory.read? t.bmem k = none) ∧
    (s.status.busy = true → s.opl = .unpack → t.bmem = s.bmem ∧ ∀ k, Memory.read? t.gmem k = none)

/-- 70_reset_and_hazards.md section 1 (log 17): power-up is reset with both memories unspecified in every element. That
power-up and reset both leave the parameters, the rest of the schedule, the replies and the count of draws is the model's
choice (log 7). -/
def Obligations.PowerUpEvent : Prop :=
  ∀ (s : State) (m : List Move),
    (∃ t, step { s with pending := .powerUp :: m } = .next t ∧
      t = { State.reset with cfg := s.cfg, pending := m, replies := s.replies, draws := s.draws } ∧
      (∀ k, Memory.read? t.gmem k = none) ∧ (∀ k, Memory.read? t.bmem k = none)) ∧
    (∃ t, step { s with pending := .reset :: m } = .next t ∧
      t.cfg = s.cfg ∧ t.pending = m ∧ t.replies = s.replies ∧ t.draws = s.draws)

/-! ### The binarizer and the pure functions -/

/-- R100: `bin` is 0 exactly on the black sentinel 0. -/
def Obligations.BinarizerIsExactEqualityWithBlack : Prop :=
  ∀ p : Byte, (p = 0#8 → bin p = false) ∧ (p ≠ 0#8 → bin p = true)

/-- 40_binarizer.md sections 1 and 3, 42_unpacker.md section 1: `bin` is an unsigned comparison with 1 and the OR of the
sample's bits, it is the identity on 0 and 1, and it inverts `white`. -/
def Obligations.BinarizerReadings : Prop :=
  (∀ p : Byte, bin p = decide (1 ≤ p.toNat) ∧
    bin p = (List.range 8).any fun k => p.getLsbD k) ∧
  (bin 0#8 = false ∧ bin 1#8 = true) ∧ ∀ b : Bool, bin (white b) = b

/-- R150: `pack` of an `H`-row, `W`-column grid has length `H * ceil(W / 8)`, byte `r * RB + k` is the sum over its lanes,
bit `7 - (c mod 8)` of byte `r * RB + (c div 8)` is `bin(G[r][c])`, and every other bit is 0. -/
def Obligations.PackBitsAreThePixels : Prop :=
  ∀ (g : List (List Byte)) (w h : Nat), 0 < w → 0 < h → rectangular g w h = true →
    ∃ p, Codec.pack g w h = .ok p ∧ p.length = h * ((w + 7) / 8) ∧
      (∀ r k, r < h → k < (w + 7) / 8 → (p.getD (r * ((w + 7) / 8) + k) 0#8).toNat =
        ((List.range 8).map fun j =>
          if 8 * k + j < w ∧ (g.getD r []).getD (8 * k + j) 0#8 ≠ 0#8 then 2 ^ (7 - j) else 0).sum) ∧
      ∀ r c, r < h → c < 8 * ((w + 7) / 8) →
        (p.getD (r * ((w + 7) / 8) + c / 8) 0#8).getLsbD (7 - c % 8) =
          (decide (c < w) && decide ((g.getD r []).getD c 0#8 ≠ 0#8))

/-- R151: `unpack` of a byte sequence of length `H * RB` is the `H`-row, `W`-column grid of 255 where the bit is 1 and 0
where it is not; with `W = 0` or `H = 0` it is InvalidInput, and otherwise with another length LengthMismatch. -/
def Obligations.UnpackSamplesAreTheBits : Prop :=
  ∀ (b : List Byte) (w h : Nat),
    (w = 0 ∨ h = 0 → Codec.unpack b w h = .error .invalidInput) ∧
    (0 < w → 0 < h → b.length ≠ h * ((w + 7) / 8) → Codec.unpack b w h = .error .lengthMismatch) ∧
    (0 < w → 0 < h → b.length = h * ((w + 7) / 8) → ∃ u, Codec.unpack b w h = .ok u ∧ rectangular u w h = true ∧
      ∀ r c, r < h → c < w → (u.getD r []).getD c 0#8 =
        if (b.getD (r * ((w + 7) / 8) + c / 8) 0#8).getLsbD (7 - c % 8) then 0xFF#8 else 0x00#8)

/-- 43_codec_laws.md section 2: the low-order `8 - m` bits of each row's last byte are 0 when `m = W mod 8` is not 0. -/
def Obligations.PaddingBitsAreZero : Prop :=
  ∀ (g : List (List Byte)) (w h : Nat) (p : List Byte), Codec.pack g w h = .ok p → w % 8 ≠ 0 →
    ∀ r, r < h → p.getD (r * ((w + 7) / 8) + (w + 7) / 8 - 1) 0#8 &&& (0xFF#8 >>> (w % 8)) = 0#8

/-- 43_codec_laws.md section 2: the bytes of row `j` depend on row `j` only, and so do the pixels on the bytes. -/
def Obligations.RowsAreIndependent : Prop :=
  (∀ (g g' : List (List Byte)) (w h j : Nat) (p p' : List Byte), j < h →
    Codec.pack g w h = .ok p → Codec.pack g' w h = .ok p' → g.getD j [] = g'.getD j [] →
    ∀ k, k < (w + 7) / 8 → p.getD (j * ((w + 7) / 8) + k) 0#8 = p'.getD (j * ((w + 7) / 8) + k) 0#8) ∧
  (∀ (b b' : List Byte) (w h j : Nat) (u u' : List (List Byte)), j < h →
    Codec.unpack b w h = .ok u → Codec.unpack b' w h = .ok u' →
    (∀ k, k < (w + 7) / 8 → b.getD (j * ((w + 7) / 8) + k) 0#8 = b'.getD (j * ((w + 7) / 8) + k) 0#8) →
    u.getD j [] = u'.getD j [])

/-- 43_codec_laws.md section 2: unpacking a packed grid gives 255 where the sample was not 0 and 0 where it was; a grid
of pure black and white comes back exactly. -/
def Obligations.UnpackInvertsPackOnBinaryGrids : Prop :=
  ∀ (g : List (List Byte)) (w h : Nat) (p : List Byte), Codec.pack g w h = .ok p →
    Codec.unpack p w h = .ok (g.map fun row => row.map fun x => if x = 0#8 then 0x00#8 else 0xFF#8) ∧
    ((∀ row ∈ g, ∀ x ∈ row, x = 0x00#8 ∨ x = 0xFF#8) → Codec.unpack p w h = .ok g)

/-- 43_codec_laws.md section 2: packing an unpacked byte sequence gives it back with every padding bit cleared. -/
def Obligations.PackOfUnpackClearsPadding : Prop :=
  ∀ (b : List Byte) (w h : Nat) (u : List (List Byte)), Codec.unpack b w h = .ok u →
    Codec.pack u w h = .ok (clearPadding w b) ∧ (w % 8 = 0 → Codec.pack u w h = .ok b)

/-- 41_packer.md section 1, 30_encoding.md section 3: cutting a sequence of entries after every `eol` gives `H` rows of
exactly `W` entries with nothing left over exactly when there are `W * H` entries and `eol = 1` just at the last column
of each row. -/
def Obligations.CutRowsMatchTheRowCheck : Prop :=
  ∀ (es : List Entry) (w h : Nat), 0 < w →
    (((cutRows es).2 = [] ∧ rectangular (cutRows es).1 w h = true) ↔
      (es.length = w * h ∧ ∀ i, i < es.length → (es.getD i 0#9).getLsbD 8 = decide (i % w = w - 1)))
end

