-- ==== Sys2Proof/Laws/Decode.lean ====
section
/-! SUPPORT. The two fields of a command word (30_encoding.md R80): what each reads of a word put together from them, and
that they lose no bit. -/

namespace Sys2Proof

theorem opField_append (g : BitVec 30) (k : BitVec 2) : opField (g ++ k) = k := by
  refine BitVec.eq_of_getLsbD_eq fun i hi => ?_
  simp only [opField, BitVec.getLsbD_extractLsb', BitVec.getLsbD_append]
  simp [hi]

theorem ignField_append (g : BitVec 30) (k : BitVec 2) : ignField (g ++ k) = g := by
  refine BitVec.eq_of_getLsbD_eq fun i hi => ?_
  have h1 : ¬ 2 + i < 2 := by omega
  simp only [ignField, BitVec.getLsbD_extractLsb', BitVec.getLsbD_append]
  simp [hi, h1]

/-- A word is its two fields. -/
theorem ignField_append_opField (w : Word) : ignField w ++ opField w = w := by
  refine BitVec.eq_of_getLsbD_eq fun i hi => ?_
  simp only [ignField, opField, BitVec.getLsbD_append, BitVec.getLsbD_extractLsb']
  by_cases h : i < 2
  · simp [h]
  · have h1 : i - 2 < 30 := by omega
    have h2 : 2 + (i - 2) = i := by omega
    simp [h, h1, h2]

/-- The four values of OP (R80). -/
theorem opField_cases (k : BitVec 2) : k = 0b00#2 ∨ k = 0b01#2 ∨ k = 0b10#2 ∨ k = 0b11#2 := by revert k; decide

/-- The mask of spec/opcode_table.json keeps exactly OP. -/
theorem append_and_mask (g : BitVec 30) (k : BitVec 2) : (g ++ k) &&& 0x3#32 = k.setWidth 32 := by
  have hm : (0x3#32) = (0#30 ++ 3#2) := by decide
  have hg : g &&& 0#30 = 0#30 := by simp
  have hk : k &&& 3#2 = k := by revert k; decide
  rw [hm, BitVec.and_append, hg, hk]
  revert k; decide

end Sys2Proof
end

