-- ==== Sys2Proof/Laws/Memory.lean ====
section
/-! SUPPORT. The laws of a memory: a read after a write, and the canonical form, which every write keeps. -/

namespace Sys2Proof.Machine

variable {n : Nat}

@[simp] theorem Memory.read?_nil (i : Nat) : Memory.read? ([] : Memory n) i = none := rfl

theorem Memory.read?_cons (a : Nat) (v : BitVec n) (m : Memory n) (i : Nat) :
    Memory.read? ((a, v) :: m) i = if i = a then some v else Memory.read? m i := rfl

/-- A read after an insertion: the value at the same index, the old reading at every other. -/
theorem Memory.read?_insert (m : Memory n) (i j : Nat) (v : BitVec n) :
    Memory.read? (Memory.insert i v m) j = if j = i then some v else Memory.read? m j := by
  induction m with
  | nil => simp [Memory.insert, Memory.read?_cons]
  | cons p m ih =>
    obtain ⟨a, w⟩ := p
    unfold Memory.insert
    split
    · rw [Memory.read?_cons]
    · split
      · next h => subst h; simp only [Memory.read?_cons]; split <;> simp_all
      · next hne => simp only [Memory.read?_cons, ih]; split <;> split <;> simp_all

/-- A read after a write of the same element of the space. -/
theorem Memory.read?_write_same {cap : Nat} (m : Memory n) {i : Nat} (v : BitVec n) (h : i < cap) :
    Memory.read? (Memory.write cap m i v) i = some v := by
  simp [Memory.write, h, Memory.read?_insert]

/-- A write leaves every other element alone. -/
theorem Memory.read?_write_other {cap : Nat} (m : Memory n) {i j : Nat} (v : BitVec n) (h : j ≠ i) :
    Memory.read? (Memory.write cap m i v) j = Memory.read? m j := by
  unfold Memory.write; split <;> simp [Memory.read?_insert, h]

/-- A write outside the space changes nothing. -/
theorem Memory.write_outside {cap : Nat} (m : Memory n) {i : Nat} (v : BitVec n) (h : cap ≤ i) :
    Memory.write cap m i v = m := by
  simp [Memory.write, Nat.not_lt.mpr h]

theorem Memory.wfFrom_cons {cap lo a : Nat} {v : BitVec n} {m : Memory n} :
    Memory.wfFrom cap lo ((a, v) :: m) = true ↔ (lo ≤ a ∧ a < cap) ∧ Memory.wfFrom cap (a + 1) m = true := by
  simp [Memory.wfFrom]

theorem Memory.insert_wfFrom {cap : Nat} {i : Nat} (hi : i < cap) (v : BitVec n) (m : Memory n) :
    ∀ lo, lo ≤ i → Memory.wfFrom cap lo m = true → Memory.wfFrom cap lo (Memory.insert i v m) = true := by
  induction m with
  | nil => intro lo hlo _; simp [Memory.insert, Memory.wfFrom, hlo, hi]
  | cons p m ih =>
    obtain ⟨a, w⟩ := p
    intro lo hlo hm
    rw [Memory.wfFrom_cons] at hm
    unfold Memory.insert
    split
    · next h => rw [Memory.wfFrom_cons, Memory.wfFrom_cons]; exact ⟨⟨hlo, hi⟩, ⟨h, hm.1.2⟩, hm.2⟩
    · split
      · next h => rw [Memory.wfFrom_cons]; subst h; exact hm
      · next h1 h2 => rw [Memory.wfFrom_cons]; exact ⟨hm.1, ih _ (by omega) hm.2⟩

@[simp] theorem Memory.wf_nil (cap : Nat) : Memory.wf cap ([] : Memory n) = true := rfl

/-- Every write keeps the canonical form. -/
theorem Memory.write_wf {cap : Nat} {m : Memory n} (h : Memory.wf cap m = true) (i : Nat) (v : BitVec n) :
    Memory.wf cap (Memory.write cap m i v) = true := by
  unfold Memory.write
  split
  · next hi => exact Memory.insert_wfFrom hi v m 0 (Nat.zero_le _) h
  · exact h

theorem Memory.read?_of_wfFrom {cap : Nat} (m : Memory n) :
    ∀ lo, Memory.wfFrom cap lo m = true → ∀ {i v}, Memory.read? m i = some v → lo ≤ i ∧ i < cap := by
  induction m with
  | nil => intro lo _ i v h; simp at h
  | cons p m ih =>
    obtain ⟨a, w⟩ := p
    intro lo hm i v h
    rw [Memory.wfFrom_cons] at hm
    rw [Memory.read?_cons] at h
    split at h
    · next e => subst e; exact hm.1
    · have := ih _ hm.2 h; omega

/-- A canonical memory lists nothing outside its space. -/
theorem Memory.read?_lt {cap : Nat} {m : Memory n} (h : Memory.wf cap m = true) {i : Nat} {v : BitVec n}
    (hr : Memory.read? m i = some v) : i < cap :=
  (Memory.read?_of_wfFrom m 0 h hr).2

/-- Equal memories are equal data: two canonical memories that read alike are the same list. -/
theorem Memory.wfFrom_ext {cap : Nat} (m : Memory n) : ∀ (lo : Nat) (m' : Memory n), Memory.wfFrom cap lo m = true →
    Memory.wfFrom cap lo m' = true → (∀ i, Memory.read? m i = Memory.read? m' i) → m = m' := by
  induction m with
  | nil =>
    intro lo m' _ _ he
    cases m' with
    | nil => rfl
    | cons q m' => obtain ⟨b, w⟩ := q; have := he b; simp [Memory.read?_cons] at this
  | cons p m ih =>
    obtain ⟨a, v⟩ := p
    intro lo m' hm hm' he
    cases m' with
    | nil => have := he a; simp [Memory.read?_cons] at this
    | cons q m' =>
      obtain ⟨b, w⟩ := q
      rw [Memory.wfFrom_cons] at hm hm'
      have ha := he a
      have hb := he b
      simp only [Memory.read?_cons, if_true] at ha hb
      have hab : a = b := by
        by_contra hne
        rw [if_neg hne] at ha
        rw [if_neg (Ne.symm hne)] at hb
        have h1 := (Memory.read?_of_wfFrom m' _ hm'.2 ha.symm).1
        have h2 := (Memory.read?_of_wfFrom m _ hm.2 hb).1
        omega
      subst hab
      rw [if_pos rfl] at ha
      cases ha
      congr 1
      refine ih (a + 1) m' hm.2 hm'.2 fun i => ?_
      have hi := he i
      simp only [Memory.read?_cons] at hi
      split at hi
      · next e =>
        subst e
        have hout : ∀ (k : Memory n), Memory.wfFrom cap (i + 1) k = true → Memory.read? k i = none := by
          intro k hk
          cases hr : Memory.read? k i with
          | none => rfl
          | some u => have := (Memory.read?_of_wfFrom k _ hk hr).1; omega
        rw [hout m hm.2, hout m' hm'.2]
      · exact hi

end Sys2Proof.Machine
end

