-- ==== Sys2Proof/Laws/State.lean ====
section
/-! SUPPORT. One lemma per field per update of State (10_state.md): what each update writes and what it leaves alone, so that
no later proof unfolds a record update. -/

namespace Sys2Proof.Machine

variable (s : State)

/-! ### setCursor -/

@[simp] theorem State.setCursor_cfg (r c : Nat) : (s.setCursor r c).cfg = s.cfg := rfl
@[simp] theorem State.setCursor_width (r c : Nat) : (s.setCursor r c).width = s.width := rfl
@[simp] theorem State.setCursor_height (r c : Nat) : (s.setCursor r c).height = s.height := rfl
@[simp] theorem State.setCursor_glen (r c : Nat) : (s.setCursor r c).glen = s.glen := rfl
@[simp] theorem State.setCursor_blen (r c : Nat) : (s.setCursor r c).blen = s.blen := rfl
@[simp] theorem State.setCursor_status (r c : Nat) : (s.setCursor r c).status = s.status := rfl
@[simp] theorem State.setCursor_opl (r c : Nat) : (s.setCursor r c).opl = s.opl := rfl
@[simp] theorem State.setCursor_r (r c : Nat) : (s.setCursor r c).r = trunc s.cfg.dimw r := rfl
@[simp] theorem State.setCursor_c (r c : Nat) : (s.setCursor r c).c = trunc s.cfg.dimw c := rfl
@[simp] theorem State.setCursor_gi (r c : Nat) : (s.setCursor r c).gi = s.gi := rfl
@[simp] theorem State.setCursor_bi (r c : Nat) : (s.setCursor r c).bi = s.bi := rfl
@[simp] theorem State.setCursor_acc (r c : Nat) : (s.setCursor r c).acc = s.acc := rfl
@[simp] theorem State.setCursor_gmem (r c : Nat) : (s.setCursor r c).gmem = s.gmem := rfl
@[simp] theorem State.setCursor_bmem (r c : Nat) : (s.setCursor r c).bmem = s.bmem := rfl
@[simp] theorem State.setCursor_pending (r c : Nat) : (s.setCursor r c).pending = s.pending := rfl
@[simp] theorem State.setCursor_replies (r c : Nat) : (s.setCursor r c).replies = s.replies := rfl
@[simp] theorem State.setCursor_draws (r c : Nat) : (s.setCursor r c).draws = s.draws := rfl
@[simp] theorem State.setCursor_rowBytes (r c : Nat) : (s.setCursor r c).rowBytes = s.rowBytes := rfl
@[simp] theorem State.setCursor_entryCount (r c : Nat) : (s.setCursor r c).entryCount = s.entryCount := rfl
@[simp] theorem State.setCursor_byteCount (r c : Nat) : (s.setCursor r c).byteCount = s.byteCount := rfl

/-! ### setGi -/

@[simp] theorem State.setGi_cfg (v : Nat) : (s.setGi v).cfg = s.cfg := rfl
@[simp] theorem State.setGi_width (v : Nat) : (s.setGi v).width = s.width := rfl
@[simp] theorem State.setGi_height (v : Nat) : (s.setGi v).height = s.height := rfl
@[simp] theorem State.setGi_glen (v : Nat) : (s.setGi v).glen = s.glen := rfl
@[simp] theorem State.setGi_blen (v : Nat) : (s.setGi v).blen = s.blen := rfl
@[simp] theorem State.setGi_status (v : Nat) : (s.setGi v).status = s.status := rfl
@[simp] theorem State.setGi_opl (v : Nat) : (s.setGi v).opl = s.opl := rfl
@[simp] theorem State.setGi_r (v : Nat) : (s.setGi v).r = s.r := rfl
@[simp] theorem State.setGi_c (v : Nat) : (s.setGi v).c = s.c := rfl
@[simp] theorem State.setGi_gi (v : Nat) : (s.setGi v).gi = trunc (lenw s.cfg) v := rfl
@[simp] theorem State.setGi_bi (v : Nat) : (s.setGi v).bi = s.bi := rfl
@[simp] theorem State.setGi_acc (v : Nat) : (s.setGi v).acc = s.acc := rfl
@[simp] theorem State.setGi_gmem (v : Nat) : (s.setGi v).gmem = s.gmem := rfl
@[simp] theorem State.setGi_bmem (v : Nat) : (s.setGi v).bmem = s.bmem := rfl
@[simp] theorem State.setGi_pending (v : Nat) : (s.setGi v).pending = s.pending := rfl
@[simp] theorem State.setGi_replies (v : Nat) : (s.setGi v).replies = s.replies := rfl
@[simp] theorem State.setGi_draws (v : Nat) : (s.setGi v).draws = s.draws := rfl
@[simp] theorem State.setGi_rowBytes (v : Nat) : (s.setGi v).rowBytes = s.rowBytes := rfl
@[simp] theorem State.setGi_entryCount (v : Nat) : (s.setGi v).entryCount = s.entryCount := rfl
@[simp] theorem State.setGi_byteCount (v : Nat) : (s.setGi v).byteCount = s.byteCount := rfl
@[simp] theorem State.setGi_lastCol (v : Nat) : (s.setGi v).lastCol = s.lastCol := rfl
@[simp] theorem State.setGi_endsByte (v : Nat) : (s.setGi v).endsByte = s.endsByte := rfl

/-! ### setBi -/

@[simp] theorem State.setBi_cfg (v : Nat) : (s.setBi v).cfg = s.cfg := rfl
@[simp] theorem State.setBi_width (v : Nat) : (s.setBi v).width = s.width := rfl
@[simp] theorem State.setBi_height (v : Nat) : (s.setBi v).height = s.height := rfl
@[simp] theorem State.setBi_glen (v : Nat) : (s.setBi v).glen = s.glen := rfl
@[simp] theorem State.setBi_blen (v : Nat) : (s.setBi v).blen = s.blen := rfl
@[simp] theorem State.setBi_status (v : Nat) : (s.setBi v).status = s.status := rfl
@[simp] theorem State.setBi_opl (v : Nat) : (s.setBi v).opl = s.opl := rfl
@[simp] theorem State.setBi_r (v : Nat) : (s.setBi v).r = s.r := rfl
@[simp] theorem State.setBi_c (v : Nat) : (s.setBi v).c = s.c := rfl
@[simp] theorem State.setBi_gi (v : Nat) : (s.setBi v).gi = s.gi := rfl
@[simp] theorem State.setBi_bi (v : Nat) : (s.setBi v).bi = trunc (lenw s.cfg) v := rfl
@[simp] theorem State.setBi_acc (v : Nat) : (s.setBi v).acc = s.acc := rfl
@[simp] theorem State.setBi_gmem (v : Nat) : (s.setBi v).gmem = s.gmem := rfl
@[simp] theorem State.setBi_bmem (v : Nat) : (s.setBi v).bmem = s.bmem := rfl
@[simp] theorem State.setBi_pending (v : Nat) : (s.setBi v).pending = s.pending := rfl
@[simp] theorem State.setBi_replies (v : Nat) : (s.setBi v).replies = s.replies := rfl
@[simp] theorem State.setBi_draws (v : Nat) : (s.setBi v).draws = s.draws := rfl
@[simp] theorem State.setBi_rowBytes (v : Nat) : (s.setBi v).rowBytes = s.rowBytes := rfl
@[simp] theorem State.setBi_entryCount (v : Nat) : (s.setBi v).entryCount = s.entryCount := rfl
@[simp] theorem State.setBi_byteCount (v : Nat) : (s.setBi v).byteCount = s.byteCount := rfl
@[simp] theorem State.setBi_lastCol (v : Nat) : (s.setBi v).lastCol = s.lastCol := rfl
@[simp] theorem State.setBi_endsByte (v : Nat) : (s.setBi v).endsByte = s.endsByte := rfl

/-! ### setAcc -/

@[simp] theorem State.setAcc_cfg (v : Byte) : (s.setAcc v).cfg = s.cfg := rfl
@[simp] theorem State.setAcc_width (v : Byte) : (s.setAcc v).width = s.width := rfl
@[simp] theorem State.setAcc_height (v : Byte) : (s.setAcc v).height = s.height := rfl
@[simp] theorem State.setAcc_glen (v : Byte) : (s.setAcc v).glen = s.glen := rfl
@[simp] theorem State.setAcc_blen (v : Byte) : (s.setAcc v).blen = s.blen := rfl
@[simp] theorem State.setAcc_status (v : Byte) : (s.setAcc v).status = s.status := rfl
@[simp] theorem State.setAcc_opl (v : Byte) : (s.setAcc v).opl = s.opl := rfl
@[simp] theorem State.setAcc_r (v : Byte) : (s.setAcc v).r = s.r := rfl
@[simp] theorem State.setAcc_c (v : Byte) : (s.setAcc v).c = s.c := rfl
@[simp] theorem State.setAcc_gi (v : Byte) : (s.setAcc v).gi = s.gi := rfl
@[simp] theorem State.setAcc_bi (v : Byte) : (s.setAcc v).bi = s.bi := rfl
@[simp] theorem State.setAcc_acc (v : Byte) : (s.setAcc v).acc = v := rfl
@[simp] theorem State.setAcc_gmem (v : Byte) : (s.setAcc v).gmem = s.gmem := rfl
@[simp] theorem State.setAcc_bmem (v : Byte) : (s.setAcc v).bmem = s.bmem := rfl
@[simp] theorem State.setAcc_pending (v : Byte) : (s.setAcc v).pending = s.pending := rfl
@[simp] theorem State.setAcc_replies (v : Byte) : (s.setAcc v).replies = s.replies := rfl
@[simp] theorem State.setAcc_draws (v : Byte) : (s.setAcc v).draws = s.draws := rfl
@[simp] theorem State.setAcc_rowBytes (v : Byte) : (s.setAcc v).rowBytes = s.rowBytes := rfl
@[simp] theorem State.setAcc_entryCount (v : Byte) : (s.setAcc v).entryCount = s.entryCount := rfl
@[simp] theorem State.setAcc_byteCount (v : Byte) : (s.setAcc v).byteCount = s.byteCount := rfl
@[simp] theorem State.setAcc_lastCol (v : Byte) : (s.setAcc v).lastCol = s.lastCol := rfl
@[simp] theorem State.setAcc_endsByte (v : Byte) : (s.setAcc v).endsByte = s.endsByte := rfl

/-! ### setOpl -/

@[simp] theorem State.setOpl_cfg (o : Operation) : (s.setOpl o).cfg = s.cfg := rfl
@[simp] theorem State.setOpl_width (o : Operation) : (s.setOpl o).width = s.width := rfl
@[simp] theorem State.setOpl_height (o : Operation) : (s.setOpl o).height = s.height := rfl
@[simp] theorem State.setOpl_glen (o : Operation) : (s.setOpl o).glen = s.glen := rfl
@[simp] theorem State.setOpl_blen (o : Operation) : (s.setOpl o).blen = s.blen := rfl
@[simp] theorem State.setOpl_status (o : Operation) : (s.setOpl o).status = s.status := rfl
@[simp] theorem State.setOpl_opl (o : Operation) : (s.setOpl o).opl = o := rfl
@[simp] theorem State.setOpl_r (o : Operation) : (s.setOpl o).r = s.r := rfl
@[simp] theorem State.setOpl_c (o : Operation) : (s.setOpl o).c = s.c := rfl
@[simp] theorem State.setOpl_gi (o : Operation) : (s.setOpl o).gi = s.gi := rfl
@[simp] theorem State.setOpl_bi (o : Operation) : (s.setOpl o).bi = s.bi := rfl
@[simp] theorem State.setOpl_acc (o : Operation) : (s.setOpl o).acc = s.acc := rfl
@[simp] theorem State.setOpl_gmem (o : Operation) : (s.setOpl o).gmem = s.gmem := rfl
@[simp] theorem State.setOpl_bmem (o : Operation) : (s.setOpl o).bmem = s.bmem := rfl
@[simp] theorem State.setOpl_pending (o : Operation) : (s.setOpl o).pending = s.pending := rfl
@[simp] theorem State.setOpl_replies (o : Operation) : (s.setOpl o).replies = s.replies := rfl
@[simp] theorem State.setOpl_draws (o : Operation) : (s.setOpl o).draws = s.draws := rfl
@[simp] theorem State.setOpl_rowBytes (o : Operation) : (s.setOpl o).rowBytes = s.rowBytes := rfl
@[simp] theorem State.setOpl_entryCount (o : Operation) : (s.setOpl o).entryCount = s.entryCount := rfl
@[simp] theorem State.setOpl_byteCount (o : Operation) : (s.setOpl o).byteCount = s.byteCount := rfl
@[simp] theorem State.setOpl_lastCol (o : Operation) : (s.setOpl o).lastCol = s.lastCol := rfl
@[simp] theorem State.setOpl_endsByte (o : Operation) : (s.setOpl o).endsByte = s.endsByte := rfl

/-! ### setStatus -/

@[simp] theorem State.setStatus_cfg (st : Status) : (s.setStatus st).cfg = s.cfg := rfl
@[simp] theorem State.setStatus_width (st : Status) : (s.setStatus st).width = s.width := rfl
@[simp] theorem State.setStatus_height (st : Status) : (s.setStatus st).height = s.height := rfl
@[simp] theorem State.setStatus_glen (st : Status) : (s.setStatus st).glen = s.glen := rfl
@[simp] theorem State.setStatus_blen (st : Status) : (s.setStatus st).blen = s.blen := rfl
@[simp] theorem State.setStatus_status (st : Status) : (s.setStatus st).status = st := rfl
@[simp] theorem State.setStatus_opl (st : Status) : (s.setStatus st).opl = s.opl := rfl
@[simp] theorem State.setStatus_r (st : Status) : (s.setStatus st).r = s.r := rfl
@[simp] theorem State.setStatus_c (st : Status) : (s.setStatus st).c = s.c := rfl
@[simp] theorem State.setStatus_gi (st : Status) : (s.setStatus st).gi = s.gi := rfl
@[simp] theorem State.setStatus_bi (st : Status) : (s.setStatus st).bi = s.bi := rfl
@[simp] theorem State.setStatus_acc (st : Status) : (s.setStatus st).acc = s.acc := rfl
@[simp] theorem State.setStatus_gmem (st : Status) : (s.setStatus st).gmem = s.gmem := rfl
@[simp] theorem State.setStatus_bmem (st : Status) : (s.setStatus st).bmem = s.bmem := rfl
@[simp] theorem State.setStatus_pending (st : Status) : (s.setStatus st).pending = s.pending := rfl
@[simp] theorem State.setStatus_replies (st : Status) : (s.setStatus st).replies = s.replies := rfl
@[simp] theorem State.setStatus_draws (st : Status) : (s.setStatus st).draws = s.draws := rfl
@[simp] theorem State.setStatus_rowBytes (st : Status) : (s.setStatus st).rowBytes = s.rowBytes := rfl
@[simp] theorem State.setStatus_entryCount (st : Status) : (s.setStatus st).entryCount = s.entryCount := rfl
@[simp] theorem State.setStatus_byteCount (st : Status) : (s.setStatus st).byteCount = s.byteCount := rfl
@[simp] theorem State.setStatus_lastCol (st : Status) : (s.setStatus st).lastCol = s.lastCol := rfl
@[simp] theorem State.setStatus_endsByte (st : Status) : (s.setStatus st).endsByte = s.endsByte := rfl

/-! ### setGmem -/

@[simp] theorem State.setGmem_cfg (m : Memory 9) : (s.setGmem m).cfg = s.cfg := rfl
@[simp] theorem State.setGmem_width (m : Memory 9) : (s.setGmem m).width = s.width := rfl
@[simp] theorem State.setGmem_height (m : Memory 9) : (s.setGmem m).height = s.height := rfl
@[simp] theorem State.setGmem_glen (m : Memory 9) : (s.setGmem m).glen = s.glen := rfl
@[simp] theorem State.setGmem_blen (m : Memory 9) : (s.setGmem m).blen = s.blen := rfl
@[simp] theorem State.setGmem_status (m : Memory 9) : (s.setGmem m).status = s.status := rfl
@[simp] theorem State.setGmem_opl (m : Memory 9) : (s.setGmem m).opl = s.opl := rfl
@[simp] theorem State.setGmem_r (m : Memory 9) : (s.setGmem m).r = s.r := rfl
@[simp] theorem State.setGmem_c (m : Memory 9) : (s.setGmem m).c = s.c := rfl
@[simp] theorem State.setGmem_gi (m : Memory 9) : (s.setGmem m).gi = s.gi := rfl
@[simp] theorem State.setGmem_bi (m : Memory 9) : (s.setGmem m).bi = s.bi := rfl
@[simp] theorem State.setGmem_acc (m : Memory 9) : (s.setGmem m).acc = s.acc := rfl
@[simp] theorem State.setGmem_gmem (m : Memory 9) : (s.setGmem m).gmem = m := rfl
@[simp] theorem State.setGmem_bmem (m : Memory 9) : (s.setGmem m).bmem = s.bmem := rfl
@[simp] theorem State.setGmem_pending (m : Memory 9) : (s.setGmem m).pending = s.pending := rfl
@[simp] theorem State.setGmem_replies (m : Memory 9) : (s.setGmem m).replies = s.replies := rfl
@[simp] theorem State.setGmem_draws (m : Memory 9) : (s.setGmem m).draws = s.draws := rfl
@[simp] theorem State.setGmem_rowBytes (m : Memory 9) : (s.setGmem m).rowBytes = s.rowBytes := rfl
@[simp] theorem State.setGmem_entryCount (m : Memory 9) : (s.setGmem m).entryCount = s.entryCount := rfl
@[simp] theorem State.setGmem_byteCount (m : Memory 9) : (s.setGmem m).byteCount = s.byteCount := rfl
@[simp] theorem State.setGmem_lastCol (m : Memory 9) : (s.setGmem m).lastCol = s.lastCol := rfl
@[simp] theorem State.setGmem_endsByte (m : Memory 9) : (s.setGmem m).endsByte = s.endsByte := rfl

/-! ### setBmem -/

@[simp] theorem State.setBmem_cfg (m : Memory 8) : (s.setBmem m).cfg = s.cfg := rfl
@[simp] theorem State.setBmem_width (m : Memory 8) : (s.setBmem m).width = s.width := rfl
@[simp] theorem State.setBmem_height (m : Memory 8) : (s.setBmem m).height = s.height := rfl
@[simp] theorem State.setBmem_glen (m : Memory 8) : (s.setBmem m).glen = s.glen := rfl
@[simp] theorem State.setBmem_blen (m : Memory 8) : (s.setBmem m).blen = s.blen := rfl
@[simp] theorem State.setBmem_status (m : Memory 8) : (s.setBmem m).status = s.status := rfl
@[simp] theorem State.setBmem_opl (m : Memory 8) : (s.setBmem m).opl = s.opl := rfl
@[simp] theorem State.setBmem_r (m : Memory 8) : (s.setBmem m).r = s.r := rfl
@[simp] theorem State.setBmem_c (m : Memory 8) : (s.setBmem m).c = s.c := rfl
@[simp] theorem State.setBmem_gi (m : Memory 8) : (s.setBmem m).gi = s.gi := rfl
@[simp] theorem State.setBmem_bi (m : Memory 8) : (s.setBmem m).bi = s.bi := rfl
@[simp] theorem State.setBmem_acc (m : Memory 8) : (s.setBmem m).acc = s.acc := rfl
@[simp] theorem State.setBmem_gmem (m : Memory 8) : (s.setBmem m).gmem = s.gmem := rfl
@[simp] theorem State.setBmem_bmem (m : Memory 8) : (s.setBmem m).bmem = m := rfl
@[simp] theorem State.setBmem_pending (m : Memory 8) : (s.setBmem m).pending = s.pending := rfl
@[simp] theorem State.setBmem_replies (m : Memory 8) : (s.setBmem m).replies = s.replies := rfl
@[simp] theorem State.setBmem_draws (m : Memory 8) : (s.setBmem m).draws = s.draws := rfl
@[simp] theorem State.setBmem_rowBytes (m : Memory 8) : (s.setBmem m).rowBytes = s.rowBytes := rfl
@[simp] theorem State.setBmem_entryCount (m : Memory 8) : (s.setBmem m).entryCount = s.entryCount := rfl
@[simp] theorem State.setBmem_byteCount (m : Memory 8) : (s.setBmem m).byteCount = s.byteCount := rfl
@[simp] theorem State.setBmem_lastCol (m : Memory 8) : (s.setBmem m).lastCol = s.lastCol := rfl
@[simp] theorem State.setBmem_endsByte (m : Memory 8) : (s.setBmem m).endsByte = s.endsByte := rfl

/-! ### setPending -/

@[simp] theorem State.setPending_cfg (ms : List Move) : (s.setPending ms).cfg = s.cfg := rfl
@[simp] theorem State.setPending_width (ms : List Move) : (s.setPending ms).width = s.width := rfl
@[simp] theorem State.setPending_height (ms : List Move) : (s.setPending ms).height = s.height := rfl
@[simp] theorem State.setPending_glen (ms : List Move) : (s.setPending ms).glen = s.glen := rfl
@[simp] theorem State.setPending_blen (ms : List Move) : (s.setPending ms).blen = s.blen := rfl
@[simp] theorem State.setPending_status (ms : List Move) : (s.setPending ms).status = s.status := rfl
@[simp] theorem State.setPending_opl (ms : List Move) : (s.setPending ms).opl = s.opl := rfl
@[simp] theorem State.setPending_r (ms : List Move) : (s.setPending ms).r = s.r := rfl
@[simp] theorem State.setPending_c (ms : List Move) : (s.setPending ms).c = s.c := rfl
@[simp] theorem State.setPending_gi (ms : List Move) : (s.setPending ms).gi = s.gi := rfl
@[simp] theorem State.setPending_bi (ms : List Move) : (s.setPending ms).bi = s.bi := rfl
@[simp] theorem State.setPending_acc (ms : List Move) : (s.setPending ms).acc = s.acc := rfl
@[simp] theorem State.setPending_gmem (ms : List Move) : (s.setPending ms).gmem = s.gmem := rfl
@[simp] theorem State.setPending_bmem (ms : List Move) : (s.setPending ms).bmem = s.bmem := rfl
@[simp] theorem State.setPending_pending (ms : List Move) : (s.setPending ms).pending = ms := rfl
@[simp] theorem State.setPending_replies (ms : List Move) : (s.setPending ms).replies = s.replies := rfl
@[simp] theorem State.setPending_draws (ms : List Move) : (s.setPending ms).draws = s.draws := rfl
@[simp] theorem State.setPending_rowBytes (ms : List Move) : (s.setPending ms).rowBytes = s.rowBytes := rfl
@[simp] theorem State.setPending_entryCount (ms : List Move) : (s.setPending ms).entryCount = s.entryCount := rfl
@[simp] theorem State.setPending_byteCount (ms : List Move) : (s.setPending ms).byteCount = s.byteCount := rfl
@[simp] theorem State.setPending_lastCol (ms : List Move) : (s.setPending ms).lastCol = s.lastCol := rfl
@[simp] theorem State.setPending_endsByte (ms : List Move) : (s.setPending ms).endsByte = s.endsByte := rfl

/-! ### reply -/

@[simp] theorem State.reply_cfg (w : Word) : (s.reply w).cfg = s.cfg := rfl
@[simp] theorem State.reply_width (w : Word) : (s.reply w).width = s.width := rfl
@[simp] theorem State.reply_height (w : Word) : (s.reply w).height = s.height := rfl
@[simp] theorem State.reply_glen (w : Word) : (s.reply w).glen = s.glen := rfl
@[simp] theorem State.reply_blen (w : Word) : (s.reply w).blen = s.blen := rfl
@[simp] theorem State.reply_status (w : Word) : (s.reply w).status = s.status := rfl
@[simp] theorem State.reply_opl (w : Word) : (s.reply w).opl = s.opl := rfl
@[simp] theorem State.reply_r (w : Word) : (s.reply w).r = s.r := rfl
@[simp] theorem State.reply_c (w : Word) : (s.reply w).c = s.c := rfl
@[simp] theorem State.reply_gi (w : Word) : (s.reply w).gi = s.gi := rfl
@[simp] theorem State.reply_bi (w : Word) : (s.reply w).bi = s.bi := rfl
@[simp] theorem State.reply_acc (w : Word) : (s.reply w).acc = s.acc := rfl
@[simp] theorem State.reply_gmem (w : Word) : (s.reply w).gmem = s.gmem := rfl
@[simp] theorem State.reply_bmem (w : Word) : (s.reply w).bmem = s.bmem := rfl
@[simp] theorem State.reply_pending (w : Word) : (s.reply w).pending = s.pending := rfl
@[simp] theorem State.reply_replies (w : Word) : (s.reply w).replies = w :: s.replies := rfl
@[simp] theorem State.reply_draws (w : Word) : (s.reply w).draws = s.draws := rfl
@[simp] theorem State.reply_rowBytes (w : Word) : (s.reply w).rowBytes = s.rowBytes := rfl
@[simp] theorem State.reply_entryCount (w : Word) : (s.reply w).entryCount = s.entryCount := rfl
@[simp] theorem State.reply_byteCount (w : Word) : (s.reply w).byteCount = s.byteCount := rfl
@[simp] theorem State.reply_lastCol (w : Word) : (s.reply w).lastCol = s.lastCol := rfl
@[simp] theorem State.reply_endsByte (w : Word) : (s.reply w).endsByte = s.endsByte := rfl

/-! ### drew -/

@[simp] theorem State.drew_cfg : s.drew.cfg = s.cfg := rfl
@[simp] theorem State.drew_width : s.drew.width = s.width := rfl
@[simp] theorem State.drew_height : s.drew.height = s.height := rfl
@[simp] theorem State.drew_glen : s.drew.glen = s.glen := rfl
@[simp] theorem State.drew_blen : s.drew.blen = s.blen := rfl
@[simp] theorem State.drew_status : s.drew.status = s.status := rfl
@[simp] theorem State.drew_opl : s.drew.opl = s.opl := rfl
@[simp] theorem State.drew_r : s.drew.r = s.r := rfl
@[simp] theorem State.drew_c : s.drew.c = s.c := rfl
@[simp] theorem State.drew_gi : s.drew.gi = s.gi := rfl
@[simp] theorem State.drew_bi : s.drew.bi = s.bi := rfl
@[simp] theorem State.drew_acc : s.drew.acc = s.acc := rfl
@[simp] theorem State.drew_gmem : s.drew.gmem = s.gmem := rfl
@[simp] theorem State.drew_bmem : s.drew.bmem = s.bmem := rfl
@[simp] theorem State.drew_pending : s.drew.pending = s.pending := rfl
@[simp] theorem State.drew_replies : s.drew.replies = s.replies := rfl
@[simp] theorem State.drew_draws : s.drew.draws = s.draws + 1 := rfl
@[simp] theorem State.drew_rowBytes : s.drew.rowBytes = s.rowBytes := rfl
@[simp] theorem State.drew_entryCount : s.drew.entryCount = s.entryCount := rfl
@[simp] theorem State.drew_byteCount : s.drew.byteCount = s.byteCount := rfl
@[simp] theorem State.drew_lastCol : s.drew.lastCol = s.lastCol := rfl
@[simp] theorem State.drew_endsByte : s.drew.endsByte = s.endsByte := rfl

/-! ### setX -/

@[simp] theorem State.setX_cfg (n : OperandReg) (v : Nat) : (s.setX n v).cfg = s.cfg := by cases n <;> rfl
@[simp] theorem State.setX_status (n : OperandReg) (v : Nat) : (s.setX n v).status = s.status := by cases n <;> rfl
@[simp] theorem State.setX_opl (n : OperandReg) (v : Nat) : (s.setX n v).opl = s.opl := by cases n <;> rfl
@[simp] theorem State.setX_r (n : OperandReg) (v : Nat) : (s.setX n v).r = s.r := by cases n <;> rfl
@[simp] theorem State.setX_c (n : OperandReg) (v : Nat) : (s.setX n v).c = s.c := by cases n <;> rfl
@[simp] theorem State.setX_gi (n : OperandReg) (v : Nat) : (s.setX n v).gi = s.gi := by cases n <;> rfl
@[simp] theorem State.setX_bi (n : OperandReg) (v : Nat) : (s.setX n v).bi = s.bi := by cases n <;> rfl
@[simp] theorem State.setX_acc (n : OperandReg) (v : Nat) : (s.setX n v).acc = s.acc := by cases n <;> rfl
@[simp] theorem State.setX_gmem (n : OperandReg) (v : Nat) : (s.setX n v).gmem = s.gmem := by cases n <;> rfl
@[simp] theorem State.setX_bmem (n : OperandReg) (v : Nat) : (s.setX n v).bmem = s.bmem := by cases n <;> rfl
@[simp] theorem State.setX_pending (n : OperandReg) (v : Nat) : (s.setX n v).pending = s.pending := by cases n <;> rfl
@[simp] theorem State.setX_replies (n : OperandReg) (v : Nat) : (s.setX n v).replies = s.replies := by cases n <;> rfl
@[simp] theorem State.setX_draws (n : OperandReg) (v : Nat) : (s.setX n v).draws = s.draws := by cases n <;> rfl
@[simp] theorem State.setX_width_width (v : Nat) : (s.setX .width v).width = trunc s.cfg.dimw v := rfl
@[simp] theorem State.setX_width_height (v : Nat) : (s.setX .width v).height = s.height := rfl
@[simp] theorem State.setX_width_glen (v : Nat) : (s.setX .width v).glen = s.glen := rfl
@[simp] theorem State.setX_width_blen (v : Nat) : (s.setX .width v).blen = s.blen := rfl
@[simp] theorem State.setX_height_width (v : Nat) : (s.setX .height v).width = s.width := rfl
@[simp] theorem State.setX_height_height (v : Nat) : (s.setX .height v).height = trunc s.cfg.dimw v := rfl
@[simp] theorem State.setX_height_glen (v : Nat) : (s.setX .height v).glen = s.glen := rfl
@[simp] theorem State.setX_height_blen (v : Nat) : (s.setX .height v).blen = s.blen := rfl
@[simp] theorem State.setX_glen_width (v : Nat) : (s.setX .glen v).width = s.width := rfl
@[simp] theorem State.setX_glen_height (v : Nat) : (s.setX .glen v).height = s.height := rfl
@[simp] theorem State.setX_glen_glen (v : Nat) : (s.setX .glen v).glen = trunc (lenw s.cfg) v := rfl
@[simp] theorem State.setX_glen_blen (v : Nat) : (s.setX .glen v).blen = s.blen := rfl
@[simp] theorem State.setX_blen_width (v : Nat) : (s.setX .blen v).width = s.width := rfl
@[simp] theorem State.setX_blen_height (v : Nat) : (s.setX .blen v).height = s.height := rfl
@[simp] theorem State.setX_blen_glen (v : Nat) : (s.setX .blen v).glen = s.glen := rfl
@[simp] theorem State.setX_blen_blen (v : Nat) : (s.setX .blen v).blen = trunc (lenw s.cfg) v := rfl

@[simp] theorem outReg_pack : outReg .pack = .blen := rfl
@[simp] theorem outReg_unpack : outReg .unpack = .glen := rfl
@[simp] theorem State.setX_outReg_width (o : Operation) (v : Nat) : (s.setX (outReg o) v).width = s.width := by cases o <;> rfl
@[simp] theorem State.setX_outReg_height (o : Operation) (v : Nat) : (s.setX (outReg o) v).height = s.height := by cases o <;> rfl
@[simp] theorem State.setX_outReg_rowBytes (o : Operation) (v : Nat) : (s.setX (outReg o) v).rowBytes = s.rowBytes := by cases o <;> rfl
@[simp] theorem State.setX_outReg_entryCount (o : Operation) (v : Nat) : (s.setX (outReg o) v).entryCount = s.entryCount := by cases o <;> rfl
@[simp] theorem State.setX_outReg_byteCount (o : Operation) (v : Nat) : (s.setX (outReg o) v).byteCount = s.byteCount := by cases o <;> rfl
@[simp] theorem State.setX_outReg_lastCol (o : Operation) (v : Nat) : (s.setX (outReg o) v).lastCol = s.lastCol := by cases o <;> rfl
@[simp] theorem State.setX_outReg_endsByte (o : Operation) (v : Nat) : (s.setX (outReg o) v).endsByte = s.endsByte := by cases o <;> rfl

end Sys2Proof.Machine
end

