-- ==== Sys2Proof/Laws/Ops.lean ====
section
/-! SUPPORT. What each shared operation can do, said once: the block's accesses, the end and the start of an operation, the
advance of the cursor, the element steps, reset. -/

namespace Sys2Proof.Machine

/-! ### Narrowing and the counts -/

theorem trunc_of_lt {n v : Nat} (h : v < 2 ^ n) : trunc n v = v := Nat.mod_eq_of_lt h

@[simp] theorem trunc_zero (n : Nat) : trunc n 0 = 0 := Nat.zero_mod _

theorem trunc_lt (n v : Nat) : trunc n v < 2 ^ n := Nat.mod_lt _ (Nat.two_pow_pos n)

/-- `ceil(w / 8) = (w + 7) div 8` (R13, K1). -/
theorem ceil8_eq (w : Nat) : ceil8 w = (w + 7) / 8 := by unfold ceil8; split <;> omega

theorem ceil8_mono {v w : Nat} (h : v ≤ w) : ceil8 v ≤ ceil8 w := by
  rw [ceil8_eq, ceil8_eq]; omega

theorem ceil8_le (w : Nat) : ceil8 w ≤ w := by unfold ceil8; split <;> omega

/-- A column's byte is one of the row span (R57). -/
theorem div8_lt_ceil8 {c w : Nat} (h : c < w) : c / 8 < ceil8 w := by rw [ceil8_eq]; omega

/-- The index of a pixel is one of the grid's, and the index of a byte one of the sequence's (R116, R136). -/
theorem index_lt {r h c w : Nat} (hr : r < h) (hc : c < w) : r * w + c < h * w :=
  calc r * w + c < r * w + w := by omega
    _ = (r + 1) * w := by ring
    _ ≤ h * w := Nat.mul_le_mul_right _ hr

/-- Row and column are read back from an index (R26). -/
theorem index_inj {r r' c c' w : Nat} (hc : c < w) (hc' : c' < w) (h : r * w + c = r' * w + c') : r = r' ∧ c = c' := by
  have hr : r = r' := by
    have h1 : (r * w + c) / w = r := by rw [Nat.mul_comm, Nat.mul_add_div (by omega), Nat.div_eq_of_lt hc]; simp
    have h2 : (r' * w + c') / w = r' := by rw [Nat.mul_comm, Nat.mul_add_div (by omega), Nat.div_eq_of_lt hc']; simp
    rw [← h1, h, h2]
  subst hr; exact ⟨rfl, by omega⟩

/-- Products of two DIMW-bit numbers fit LENW bits (R158). -/
theorem mul_lt_two_pow {d v w : Nat} (hv : v < 2 ^ d) (hw : w < 2 ^ d) : v * w < 2 ^ (2 * d) := by
  rw [Nat.two_mul, Nat.pow_add]
  exact Nat.mul_lt_mul_of_lt_of_lt hv hw

theorem bitPos_lt (c : Nat) : bitPos c < 8 := by unfold bitPos; omega

/-! ### Entries and bits -/

@[simp] theorem entryEol_mkEntry (l : Bool) (p : Byte) : entryEol (mkEntry l p) = l := by
  simp only [entryEol, mkEntry]
  rw [BitVec.getLsbD_append]
  simp

@[simp] theorem entrySample_mkEntry (l : Bool) (p : Byte) : entrySample (mkEntry l p) = p := by
  refine BitVec.eq_of_getLsbD_eq fun i hi => ?_
  simp only [entrySample, mkEntry, BitVec.getLsbD_extractLsb', BitVec.getLsbD_append]
  simp [hi]

/-- An entry is its two fields (R86). -/
theorem mkEntry_eta (e : Entry) : mkEntry (entryEol e) (entrySample e) = e := by
  refine BitVec.eq_of_getLsbD_eq fun i hi => ?_
  simp only [entrySample, mkEntry, entryEol, BitVec.getLsbD_append, BitVec.getLsbD_extractLsb']
  by_cases h : i < 8
  · simp [h]
  · have : i = 8 := by omega
    subst this; simp

theorem getLsbD_shiftedBit (b : Bool) {k p : Nat} (hk : k < 8) : (shiftedBit b k).getLsbD p = (decide (p = k) && b) := by
  by_cases hp : p < 8
  · have all : ∀ (b : Bool) (k p : Fin 8), (shiftedBit b k).getLsbD p = (decide (p.1 = k.1) && b) := by decide
    exact all b ⟨k, hk⟩ ⟨p, hp⟩
  · rw [BitVec.getLsbD_of_ge _ _ (by omega), decide_eq_false (by omega), Bool.false_and]

@[simp] theorem bin_white (b : Bool) : bin (white b) = b := by cases b <;> decide

/-! ### The block's accesses -/

/-- What `MemRead(GMEM, i, 9)` can answer: the known entry, or a free value that counts as one draw (R203). -/
theorem memReadGrid_cases (s : State) (i : Nat) :
    (∃ e, Memory.read? s.gmem i = some e ∧ memReadGrid s i = (e, s)) ∨
    (Memory.read? s.gmem i = none ∧ memReadGrid s i = ((Config.freeWord s.draws).setWidth 9, s.drew)) := by
  unfold memReadGrid drawWord
  cases h : Memory.read? s.gmem i with
  | some e => exact .inl ⟨e, rfl, rfl⟩
  | none => exact .inr ⟨rfl, rfl⟩

/-- What `MemRead(BMEM, i, 8)` can answer (R203). -/
theorem memReadByte_cases (s : State) (i : Nat) :
    (∃ b, Memory.read? s.bmem i = some b ∧ memReadByte s i = (b, s)) ∨
    (Memory.read? s.bmem i = none ∧ memReadByte s i = ((Config.freeWord s.draws).setWidth 8, s.drew)) := by
  unfold memReadByte drawWord
  cases h : Memory.read? s.bmem i with
  | some b => exact .inl ⟨b, rfl, rfl⟩
  | none => exact .inr ⟨rfl, rfl⟩

/-! ### The end and the start of an operation -/

/-- What an accepted, refused or ignored command can do (R81): nothing while BUSY, or the error of its start check at
once, or the start of the operation. -/
theorem accept_cases (o : Operation) (check : State → Option ErrCode) (s : State) :
    (s.status.busy = true ∧ accept o check s = s) ∨
    (∃ e, s.status.busy = false ∧ check (s.setStatus s.status.cleared) = some e ∧
      accept o check s = raise o e (s.setStatus s.status.cleared)) ∨
    (s.status.busy = false ∧ check (s.setStatus s.status.cleared) = none ∧
      accept o check s = begin o (s.setStatus s.status.cleared)) := by
  unfold accept
  cases hb : s.status.busy with
  | true => exact .inl ⟨rfl, by simp⟩
  | false =>
    cases hc : check (s.setStatus s.status.cleared) with
    | some e => exact .inr (.inl ⟨e, rfl, rfl, by simp [hc]⟩)
    | none => exact .inr (.inr ⟨rfl, rfl, by simp [hc]⟩)

/-- A command that comes while BUSY is ignored (R53). -/
theorem accept_busy {o : Operation} {check : State → Option ErrCode} {s : State} (h : s.status.busy = true) :
    accept o check s = s := by
  simp [accept, h]

/-- A command whose start check fails (R81 (3)). -/
theorem accept_error {o : Operation} {check : State → Option ErrCode} {s : State} {e : ErrCode}
    (h : s.status.busy = false) (hc : check (s.setStatus s.status.cleared) = some e) :
    accept o check s = raise o e (s.setStatus s.status.cleared) := by
  simp [accept, h, hc]

/-- A command whose start check passes (R81 (4)). -/
theorem accept_start {o : Operation} {check : State → Option ErrCode} {s : State}
    (h : s.status.busy = false) (hc : check (s.setStatus s.status.cleared) = none) :
    accept o check s = begin o (s.setStatus s.status.cleared) := by
  simp [accept, h, hc]

/-- The started state of an operation, field by field (R81 (4)). -/
theorem begin_eq (o : Operation) (s : State) :
    begin o s = { s with status := s.status.started, opl := o, r := 0, c := 0, gi := 0, bi := 0, acc := 0#8 } := by
  simp [begin, State.setStatus, State.setAcc, State.setBi, State.setGi, State.setCursor, State.setOpl]

/-- Completion of PACK with an error (R176). -/
theorem raise_pack_eq (e : ErrCode) (s : State) : raise .pack e s = { s with blen := 0, status := ⟨false, true, e⟩ } := by
  simp [raise, State.setStatus, Status.completed, State.setX, outReg]

/-- Completion of UNPACK with an error (R176). -/
theorem raise_unpack_eq (e : ErrCode) (s : State) :
    raise .unpack e s = { s with glen := 0, status := ⟨false, true, e⟩ } := by
  simp [raise, State.setStatus, Status.completed, State.setX, outReg]

theorem packStartCheck_none {s : State} :
    packStartCheck s = none ↔ 0 < s.width ∧ 0 < s.height ∧ s.glen = s.entryCount := by
  unfold packStartCheck; split <;> [skip; split] <;> simp_all <;> omega

theorem packStartCheck_some {s : State} {e : ErrCode} (h : packStartCheck s = some e) : e = .invalidInput := by
  unfold packStartCheck at h; split at h <;> [skip; split at h] <;> simp_all

theorem unpackStartCheck_none {s : State} :
    unpackStartCheck s = none ↔ 0 < s.width ∧ 0 < s.height ∧ s.blen = s.byteCount := by
  unfold unpackStartCheck; split <;> [skip; split] <;> simp_all <;> omega

theorem unpackStartCheck_some {s : State} {e : ErrCode} (h : unpackStartCheck s = some e) :
    e = .invalidInput ∨ e = .lengthMismatch := by
  unfold unpackStartCheck at h; split at h <;> [skip; split at h] <;> simp_all

/-! ### The cursor -/

/-- What the last part of an element step can do (R26). -/
theorem advance_cases (f : State → State) (s : State) :
    (s.c + 1 ≠ s.width ∧ advance f s = s.setCursor s.r (s.c + 1)) ∨
    (s.c + 1 = s.width ∧ s.r + 1 < s.height ∧ advance f s = s.setCursor (s.r + 1) 0) ∨
    (s.c + 1 = s.width ∧ s.height ≤ s.r + 1 ∧ advance f s = f s) := by
  unfold advance State.lastCol
  by_cases h : s.c + 1 = s.width
  · by_cases h2 : s.r + 1 < s.height
    · exact .inr (.inl ⟨h, h2, by simp [h, h2]⟩)
    · exact .inr (.inr ⟨h, by omega, by simp [h, h2]⟩)
  · exact .inl ⟨h, by simp [h]⟩

end Sys2Proof.Machine
end

