-- ==== Sys2Proof/Laws/Element.lean ====
section
/-! SUPPORT. The element steps, said once: every field of the state after one, and that an element step does not look at
the schedule (41_packer.md R112, 42_unpacker.md R132). -/

namespace Sys2Proof.Machine

/-- Bit by bit: the pixel's bit at its position, the accumulator's bits elsewhere, where the accumulator is 0 there. -/
theorem getLsbD_filledByte (e : Entry) (s : State) (p : Nat) :
    (filledByte e s).getLsbD p = (s.acc.getLsbD p || (decide (p = bitPos s.c) && bin (entrySample e))) := by
  rw [filledByte, BitVec.getLsbD_or, getLsbD_shiftedBit _ (bitPos_lt _)]

/-- The state after the pixel part of PACK's element step, in three cases of the cursor. -/
theorem packPixel_cases (e : Entry) (s : State) :
    ∃ t, packPixel e s = t ∧
      t.bmem = (if s.endsByte then Memory.write (bcap s.cfg) s.bmem s.bi (filledByte e s) else s.bmem) ∧
      t.bi = (if s.endsByte then trunc (lenw s.cfg) (s.bi + 1) else s.bi) ∧
      t.acc = (if s.endsByte then 0#8 else filledByte e s) ∧
      t.gi = trunc (lenw s.cfg) (s.gi + 1) ∧
      t.cfg = s.cfg ∧ t.width = s.width ∧ t.height = s.height ∧ t.glen = s.glen ∧ t.opl = s.opl ∧ t.gmem = s.gmem ∧
      t.pending = s.pending ∧ t.replies = s.replies ∧ t.draws = s.draws ∧
      ((s.c + 1 ≠ s.width ∧ t.r = trunc s.cfg.dimw s.r ∧ t.c = trunc s.cfg.dimw (s.c + 1) ∧
          t.status = s.status ∧ t.blen = s.blen) ∨
        (s.c + 1 = s.width ∧ s.r + 1 < s.height ∧ t.r = trunc s.cfg.dimw (s.r + 1) ∧ t.c = 0 ∧
          t.status = s.status ∧ t.blen = s.blen) ∨
        (s.c + 1 = s.width ∧ s.height ≤ s.r + 1 ∧ t.r = s.r ∧ t.c = s.c ∧
          t.status = Status.completed .noError ∧ t.blen = trunc (lenw s.cfg) t.bi)) := by
  refine ⟨_, rfl, ?_⟩
  unfold packPixel
  cases hb : s.endsByte <;> simp only [Bool.false_eq_true, if_false, if_true]
  all_goals
    generalize hf : (fun t : State => finishOk .pack t.bi t) = f
    obtain ⟨h, ha⟩ | ⟨h, h2, ha⟩ | ⟨h, h2, ha⟩ := advance_cases f _
    all_goals
      rw [ha]
      simp [memWriteByte] at h
      try simp [memWriteByte] at h2
      try subst hf
      first
        | simp [h, h2, finishOk, memWriteByte]
        | simp [h, memWriteByte]

/-- The state after the pixel part of UNPACK's element step, in three cases of the cursor. -/
theorem unpackPixel_cases (cur : Byte) (s : State) :
    ∃ t, unpackPixel cur s = t ∧
      t.gmem = Memory.write (gcap s.cfg) s.gmem s.gi (mkEntry s.lastCol (white (cur.getLsbD (bitPos s.c)))) ∧
      t.bi = (if s.endsByte then trunc (lenw s.cfg) (s.bi + 1) else s.bi) ∧
      t.acc = cur ∧
      t.gi = trunc (lenw s.cfg) (s.gi + 1) ∧
      t.cfg = s.cfg ∧ t.width = s.width ∧ t.height = s.height ∧ t.blen = s.blen ∧ t.opl = s.opl ∧ t.bmem = s.bmem ∧
      t.pending = s.pending ∧ t.replies = s.replies ∧ t.draws = s.draws ∧
      ((s.c + 1 ≠ s.width ∧ t.r = trunc s.cfg.dimw s.r ∧ t.c = trunc s.cfg.dimw (s.c + 1) ∧
          t.status = s.status ∧ t.glen = s.glen) ∨
        (s.c + 1 = s.width ∧ s.r + 1 < s.height ∧ t.r = trunc s.cfg.dimw (s.r + 1) ∧ t.c = 0 ∧
          t.status = s.status ∧ t.glen = s.glen) ∨
        (s.c + 1 = s.width ∧ s.height ≤ s.r + 1 ∧ t.r = s.r ∧ t.c = s.c ∧
          t.status = Status.completed .noError ∧ t.glen = trunc (lenw s.cfg) t.gi)) := by
  refine ⟨_, rfl, ?_⟩
  unfold unpackPixel
  cases hb : s.endsByte <;> simp only [Bool.false_eq_true, if_false, if_true]
  all_goals
    generalize hf : (fun t : State => finishOk .unpack t.gi t) = f
    obtain ⟨h, ha⟩ | ⟨h, h2, ha⟩ | ⟨h, h2, ha⟩ := advance_cases f _
    all_goals
      rw [ha]
      simp [memWriteGrid] at h
      try simp [memWriteGrid] at h2
      try subst hf
      first
        | simp [h, h2, finishOk, memWriteGrid]
        | simp [h, memWriteGrid]

/-- What PACK's element step can do: on the entry it reads, known or drawn, it fails the row check and ends with
InvalidInput, or it packs the pixel (R112, R113). -/
theorem packStep_cases (s : State) :
    ∃ e d, ((Memory.read? s.gmem s.gi = some e ∧ d = s.draws) ∨
        (Memory.read? s.gmem s.gi = none ∧ e = (Config.freeWord s.draws).setWidth 9 ∧ d = s.draws + 1)) ∧
      ((entryEol e ≠ s.lastCol ∧ packStep s = raise .pack .invalidInput { s with draws := d }) ∨
        (entryEol e = s.lastCol ∧ packStep s = packPixel e { s with draws := d })) := by
  obtain ⟨e, h, hr⟩ | ⟨h, hr⟩ := memReadGrid_cases s s.gi
  · refine ⟨e, s.draws, .inl ⟨h, rfl⟩, ?_⟩
    by_cases hl : entryEol e = s.lastCol <;> simp [packStep, hr, hl]
  · refine ⟨_, _, .inr ⟨h, rfl, rfl⟩, ?_⟩
    by_cases hl : entryEol ((Config.freeWord s.draws).setWidth 9) = s.lastCol <;>
      simp [packStep, hr, hl, State.drew]

/-- What UNPACK's element step can do: the byte it works on is fetched, known or drawn, at the first column of a byte and
held in `acc` after it (R132). -/
theorem unpackStep_cases (s : State) :
    ∃ cur d, ((lane s.c = 0 ∧ Memory.read? s.bmem s.bi = some cur ∧ d = s.draws) ∨
        (lane s.c = 0 ∧ Memory.read? s.bmem s.bi = none ∧ cur = (Config.freeWord s.draws).setWidth 8 ∧
          d = s.draws + 1) ∨
        (lane s.c ≠ 0 ∧ cur = s.acc ∧ d = s.draws)) ∧
      unpackStep s = unpackPixel cur { s with draws := d } := by
  by_cases hl : lane s.c = 0
  · obtain ⟨b, h, hr⟩ | ⟨h, hr⟩ := memReadByte_cases s s.bi
    · exact ⟨b, _, .inl ⟨hl, h, rfl⟩, by simp [unpackStep, unpackFetch, hl, hr]⟩
    · exact ⟨_, _, .inr (.inl ⟨hl, h, rfl, rfl⟩), by simp [unpackStep, unpackFetch, hl, hr, State.drew]⟩
  · exact ⟨_, _, .inr (.inr ⟨hl, rfl, rfl⟩), by simp [unpackStep, unpackFetch, hl]⟩

/-! ### What an element step does not look at -/

/-- `s` with another schedule, other replies and another count of draws. -/
def State.env (s : State) (p : List Move) (r : List Word) (d : Nat) : State :=
  { s with pending := p, replies := r, draws := d }

variable (s : State) (p : List Move) (r : List Word) (d : Nat)

theorem advance_env (f : State → State) (hf : f (s.env p r d) = (f s).env p r d) :
    advance f (s.env p r d) = (advance f s).env p r d := by
  have hl : (s.env p r d).lastCol = s.lastCol := rfl
  have hr : ((s.env p r d).r + 1 < (s.env p r d).height) = (s.r + 1 < s.height) := rfl
  unfold advance
  rw [hl]
  cases s.lastCol
  · rfl
  · simp only [Bool.not_true, Bool.false_eq_true, if_false, hr]
    split_ifs
    · rfl
    · exact hf

theorem packPixel_env (e : Entry) : packPixel e (s.env p r d) = (packPixel e s).env p r d := by
  have hb : (s.env p r d).endsByte = s.endsByte := rfl
  unfold packPixel
  rw [hb]
  cases s.endsByte
  · exact advance_env ((s.setAcc (filledByte e s)).setGi (s.gi + 1)) p r d (fun t => finishOk .pack t.bi t) rfl
  · exact advance_env ((((memWriteByte s s.bi (filledByte e s)).setBi (s.bi + 1)).setAcc 0#8).setGi (s.gi + 1))
      p r d (fun t => finishOk .pack t.bi t) rfl

theorem unpackPixel_env (cur : Byte) : unpackPixel cur (s.env p r d) = (unpackPixel cur s).env p r d := by
  have hb : (s.env p r d).endsByte = s.endsByte := rfl
  unfold unpackPixel
  rw [hb]
  generalize he : mkEntry s.lastCol (white (cur.getLsbD (bitPos s.c))) = e
  cases s.endsByte
  · subst he
    exact advance_env ((memWriteGrid (s.setAcc cur) s.gi (mkEntry s.lastCol (white (cur.getLsbD (bitPos s.c))))).setGi
      (s.gi + 1)) p r d (fun t => finishOk .unpack t.gi t) rfl
  · subst he
    exact advance_env (((memWriteGrid (s.setAcc cur) s.gi (mkEntry s.lastCol
      (white (cur.getLsbD (bitPos s.c))))).setGi (s.gi + 1)).setBi (s.bi + 1)) p r d (fun t => finishOk .unpack t.gi t) rfl

/-- PACK's element step on a known entry (R112, R113). -/
theorem packStep_known {s : State} {e : Entry} (h : Memory.read? s.gmem s.gi = some e) :
    packStep s = if entryEol e ≠ s.lastCol then raise .pack .invalidInput s else packPixel e s := by
  simp [packStep, memReadGrid, h]

/-- UNPACK's element step at the first column of a known byte (R132). -/
theorem unpackStep_known {s : State} {b : Byte} (hc : lane s.c = 0) (h : Memory.read? s.bmem s.bi = some b) :
    unpackStep s = unpackPixel b s := by
  simp [unpackStep, unpackFetch, memReadByte, hc, h]

/-- UNPACK's element step inside a byte (R132). -/
theorem unpackStep_held {s : State} (hc : lane s.c ≠ 0) : unpackStep s = unpackPixel s.acc s := by
  simp [unpackStep, unpackFetch, hc]

/-- The element step of PACK does not look at the schedule or the replies. -/
theorem packStep_env : packStep (s.env p r s.draws) = (packStep s).env p r (packStep s).draws := by
  have hl : (s.env p r s.draws).lastCol = s.lastCol := rfl
  have hd : ∀ e (t : State), (packPixel e t).draws = t.draws := fun e t => by
    obtain ⟨_, rfl, _, _, _, _, _, _, _, _, _, _, _, _, h, _⟩ := packPixel_cases e t; exact h
  obtain ⟨e, h, hr⟩ | ⟨h, hr⟩ := memReadGrid_cases s s.gi
  · have h2 : memReadGrid (s.env p r s.draws) (s.env p r s.draws).gi = (e, s.env p r s.draws) := by
      simp [memReadGrid, h, State.env]
    simp only [packStep, hr, hl, h2, packPixel_env]
    split_ifs <;> first | rfl | rw [hd]
  · have h2 : memReadGrid (s.env p r s.draws) (s.env p r s.draws).gi =
        ((Config.freeWord s.draws).setWidth 9, s.drew.env p r (s.draws + 1)) := by
      simp [memReadGrid, h, drawWord, State.env, State.drew]
    simp only [packStep, hr, hl, h2, packPixel_env]
    split_ifs <;> first | rfl | (rw [hd]; rfl)

/-- The element step of UNPACK does not look at the schedule or the replies. -/
theorem unpackStep_env : unpackStep (s.env p r s.draws) = (unpackStep s).env p r (unpackStep s).draws := by
  have hd : ∀ e (t : State), (unpackPixel e t).draws = t.draws := fun e t => by
    obtain ⟨_, rfl, _, _, _, _, _, _, _, _, _, _, _, _, h, _⟩ := unpackPixel_cases e t; exact h
  have hc : (s.env p r s.draws).c = s.c := rfl
  have ha : (s.env p r s.draws).acc = s.acc := rfl
  simp only [unpackStep, unpackFetch, hc, ha]
  split_ifs
  · obtain ⟨e, h, hr⟩ | ⟨h, hr⟩ := memReadByte_cases s s.bi
    · have h2 : memReadByte (s.env p r s.draws) (s.env p r s.draws).bi = (e, s.env p r s.draws) := by
        simp [memReadByte, h, State.env]
      simp only [hr, h2, unpackPixel_env, hd]
    · have h2 : memReadByte (s.env p r s.draws) (s.env p r s.draws).bi =
          ((Config.freeWord s.draws).setWidth 8, s.drew.env p r (s.draws + 1)) := by
        simp [memReadByte, h, drawWord, State.env, State.drew]
      simp only [hr, h2, unpackPixel_env, hd]; rfl
  · simp only [unpackPixel_env, hd]

/-- The block's turn does not look at the schedule or the replies. -/
theorem blockTurn_env : blockTurn (s.env p r s.draws) = (blockTurn s).env p r (blockTurn s).draws := by
  have h1 : (s.env p r s.draws).status = s.status := rfl
  have h2 : (s.env p r s.draws).opl = s.opl := rfl
  unfold blockTurn elementStep
  simp only [h1, h2]
  by_cases hb : s.status.busy = true
  · rw [if_pos hb, if_pos hb]; cases s.opl <;> simp [packStep_env, unpackStep_env]
  · rw [if_neg hb, if_neg hb]

end Sys2Proof.Machine
end

