-- ==== Sys2Proof/Laws/PerInstr.lean ====
section
/-! SUPPORT. The family of lemmas with one member per command: the word a command encodes to has the match of its row of
spec/opcode_table.json under the row's mask, and keeps bits 31:2 as they are (30_encoding.md R80, R82, R83). -/

namespace Sys2Proof

/-- The match of the command's row of spec/opcode_table.json. -/
def tableMatch : Instr → Word
  | .pack _ => 0x00000001#32
  | .unpack _ => 0x00000002#32
  | .rsv0 _ => 0x00000000#32
  | .rsv3 _ => 0x00000003#32

/-- What stands in bits 31:2 of the command. -/
def Instr.ignored : Instr → BitVec 30
  | .pack g => g
  | .unpack g => g
  | .rsv0 g => g
  | .rsv3 g => g

/-- The encoding of a command agrees with its row of the opcode table and loses no ignored bit. -/
def Laws.TableMatch.Statement (i : Instr) : Prop :=
  i.wellFormed = true ∧ encode i &&& 0x00000003#32 = tableMatch i ∧ ignField (encode i) = i.ignored

theorem Laws.TableMatch.pack (g : BitVec 30) : Laws.TableMatch.Statement (.pack g) :=
  ⟨rfl, append_and_mask g _, ignField_append g _⟩

theorem Laws.TableMatch.unpack (g : BitVec 30) : Laws.TableMatch.Statement (.unpack g) :=
  ⟨rfl, append_and_mask g _, ignField_append g _⟩

theorem Laws.TableMatch.rsv0 (g : BitVec 30) : Laws.TableMatch.Statement (.rsv0 g) :=
  ⟨rfl, append_and_mask g _, ignField_append g _⟩

theorem Laws.TableMatch.rsv3 (g : BitVec 30) : Laws.TableMatch.Statement (.rsv3 g) :=
  ⟨rfl, append_and_mask g _, ignField_append g _⟩

end Sys2Proof
end

