-- ==== Sys2Proof/Laws/Step.lean ====
section
/-! SUPPORT. What one step of the machine can do, said once (20_memory.md R50, R65). -/

namespace Sys2Proof.Machine

/-- `t` is `s` with at most the schedule, the replies and the count of draws changed: what a host read, an ignored write
and an idle turn do (R52, R53). -/
def Quiet (s t : State) : Prop :=
  t = { s with pending := t.pending, replies := t.replies, draws := t.draws }

theorem Quiet.of_pending (s : State) (ms : List Move) : Quiet s (s.setPending ms) := rfl

theorem Quiet.cfg {s t : State} (h : Quiet s t) : t.cfg = s.cfg := by rw [h]
theorem Quiet.width {s t : State} (h : Quiet s t) : t.width = s.width := by rw [h]
theorem Quiet.height {s t : State} (h : Quiet s t) : t.height = s.height := by rw [h]
theorem Quiet.glen {s t : State} (h : Quiet s t) : t.glen = s.glen := by rw [h]
theorem Quiet.blen {s t : State} (h : Quiet s t) : t.blen = s.blen := by rw [h]
theorem Quiet.status {s t : State} (h : Quiet s t) : t.status = s.status := by rw [h]
theorem Quiet.opl {s t : State} (h : Quiet s t) : t.opl = s.opl := by rw [h]
theorem Quiet.r {s t : State} (h : Quiet s t) : t.r = s.r := by rw [h]
theorem Quiet.c {s t : State} (h : Quiet s t) : t.c = s.c := by rw [h]
theorem Quiet.gi {s t : State} (h : Quiet s t) : t.gi = s.gi := by rw [h]
theorem Quiet.bi {s t : State} (h : Quiet s t) : t.bi = s.bi := by rw [h]
theorem Quiet.acc {s t : State} (h : Quiet s t) : t.acc = s.acc := by rw [h]
theorem Quiet.gmem {s t : State} (h : Quiet s t) : t.gmem = s.gmem := by rw [h]
theorem Quiet.bmem {s t : State} (h : Quiet s t) : t.bmem = s.bmem := by rw [h]

theorem quiet_hostRead (sp : Space) (i : Nat) (s : State) : Quiet s (hostRead sp i s) := by
  cases sp with
  | reg => rfl
  | gmem =>
    simp only [hostRead]
    split
    · rfl
    · split
      · obtain ⟨e, -, h⟩ | ⟨-, h⟩ := memReadGrid_cases s i <;> rw [h] <;> rfl
      · rfl
  | bmem =>
    simp only [hostRead]
    split
    · rfl
    · split
      · obtain ⟨e, -, h⟩ | ⟨-, h⟩ := memReadByte_cases s i <;> rw [h] <;> rfl
      · rfl

/-- What a step that does more than `Quiet` does to `q`, the state after the move was taken off the schedule: a host
write while idle, a command, an element step, reset, power-up. -/
inductive Effect (q : State) : State → Prop
  | writeReg (idle : q.status.busy = false) (n : OperandReg) (v : Nat) : Effect q (q.setX n v)
  | writeGrid (idle : q.status.busy = false) (i : Nat) (e : Entry) : Effect q (memWriteGrid q i e)
  | writeByte (idle : q.status.busy = false) (i : Nat) (b : Byte) : Effect q (memWriteByte q i b)
  | commandPack : Effect q (accept .pack packStartCheck q)
  | commandUnpack : Effect q (accept .unpack unpackStartCheck q)
  | stepPack (busy : q.status.busy = true) (op : q.opl = .pack) : Effect q (packStep q)
  | stepUnpack (busy : q.status.busy = true) (op : q.opl = .unpack) : Effect q (unpackStep q)
  | reset : Effect q (resetEvent q)
  | powerUp : Effect q (powerUpEvent q)

/-- What a command can do: nothing, or its acceptance (R81, R83). -/
theorem exec_cases {i : Instr} {s t : State} (h : exec i s = .next t) : t = s ∨ Effect s t := by
  cases i <;> simp only [exec, execPack, execUnpack, execRsv0, execRsv3] at h <;> cases h
  · exact .inr .commandPack
  · exact .inr .commandUnpack
  · exact .inl rfl
  · exact .inl rfl

theorem busyGuard_cases {s t u : State} {P : Prop}
    (h : (Host.Outcome.next (if s.status.busy then s else u) : Host.Outcome State Fault Refusal) = .next t)
    (same : t = s → P) (wrote : s.status.busy = false → t = u → P) : P := by
  cases hb : s.status.busy <;> simp [hb] at h
  · exact wrote hb h.symm
  · exact same h.symm

/-- What a host write can do (R52, R53, R54): nothing, or while idle one register, one element, or a command. -/
theorem hostWrite_cases {sp : Space} {i : Nat} {v : Word} {s t : State} (h : hostWrite sp i v s = .next t) :
    t = s ∨ Effect s t := by
  cases sp with
  | reg =>
    simp only [hostWrite] at h
    match i, h with
    | 0, h => exact exec_cases h
    | 1, h => cases h; exact .inl rfl
    | 2, h | 3, h | 4, h | 5, h => exact busyGuard_cases h .inl fun hb ht => .inr (ht ▸ .writeReg hb _ _)
    | _ + 6, h => cases h; exact .inl rfl
  | gmem => exact busyGuard_cases h .inl fun hb ht => .inr (ht ▸ .writeGrid hb _ _)
  | bmem => exact busyGuard_cases h .inl fun hb ht => .inr (ht ▸ .writeByte hb _ _)

/-- What the block's turn can do (R11). -/
theorem blockTurn_cases (s : State) : blockTurn s = s ∨ Effect s (blockTurn s) := by
  unfold blockTurn
  cases hb : s.status.busy with
  | false => exact .inl rfl
  | true =>
    simp only [elementStep, if_true]
    cases ho : s.opl with
    | pack => exact .inr (.stepPack hb ho)
    | unpack => exact .inr (.stepUnpack hb ho)

theorem Quiet.trans {s q t : State} (h1 : Quiet s q) (h2 : Quiet q t) : Quiet s t := by
  unfold Quiet at *; rw [h2, h1]

/-- What one move can do. -/
theorem perform_cases {m : Move} {q t : State} (h : perform m q = .next t) : Quiet q t ∨ Effect q t := by
  have quiet : ∀ {P : Prop}, t = q ∨ P → Quiet q t ∨ P := fun h => h.imp_left fun (e : t = q) => e ▸ rfl
  cases m with
  | hostWrite sp i v => exact quiet (hostWrite_cases h)
  | hostRead sp i => simp only [perform] at h; cases h; exact .inl (quiet_hostRead sp i q)
  | flat a =>
    simp only [perform, flatAccess] at h
    split at h; · cases h
    split at h; · cases h
    split at h; · cases h
    split at h
    · cases h; exact .inl (quiet_hostRead _ _ q)
    · exact quiet (hostWrite_cases h)
  | block => simp only [perform] at h; cases h; exact quiet (blockTurn_cases q)
  | reset => simp only [perform] at h; cases h; exact .inr .reset
  | powerUp => simp only [perform] at h; cases h; exact .inr .powerUp

/-- What one step can do: nothing but take a move off the schedule and answer or count a draw, or one effect. -/
theorem step_cases {s t : State} (h : step s = .next t) : Quiet s t ∨ ∃ q, Quiet s q ∧ Effect q t := by
  simp only [step, nextMove] at h
  split at h
  · cases h
    exact (blockTurn_cases s).imp (fun (e : blockTurn s = s) => by rw [e]; rfl) fun e => ⟨s, rfl, e⟩
  · next m ms _ =>
    have hq := Quiet.of_pending s ms
    exact (perform_cases h).imp (hq.trans ·) fun e => ⟨_, hq, e⟩

end Sys2Proof.Machine
end

