-- ==== Sys2Proof/Tests/Slice0.lean ====
section
/-! SUPPORT. The model's own tests: the smoke tests of WellFormed, decoding by words written out from the spec, one-step
tests on the values of 95_test_vectors.md and of the rules named, and for every obligation with hypotheses a concrete state
and operands that meet them all. -/

open Sys2Proof Sys2Proof.Machine

namespace Sys2Proof.Tests

/-! ### Small states -/

/-- The state after reset, with dimensions, lengths and memories put in. -/
def loaded (w h gl bl : Nat) (g : Memory 9) (b : Memory 8) : State :=
  { State.reset with width := w, height := h, glen := gl, blen := bl, gmem := g, bmem := b }

/-- Operation `o` on a `w` by `h` grid, about to handle column `c` of row 0. -/
def running (o : Operation) (w h c : Nat) (acc : Byte) (g : Memory 9) (b : Memory 8) : State :=
  { loaded w h (w * h) (h * ceil8 w) g b with
    status := ⟨true, false, .noError⟩, opl := o, c := c, gi := c, bi := c / 8, acc := acc }

/-- `s` with one move scheduled. -/
def sched (s : State) (m : Move) : State := { s with pending := [m] }

/-- What a test looks at in the outcome of a step. -/
def after {α : Type} (o : Host.Outcome State Fault Refusal) (f : State → α) : Option α :=
  match o with
  | .next t => some (f t)
  | .fault _ => none
  | .refused _ => none

/-- The name of a refusal, where the step is refused. -/
def refusalOf (o : Host.Outcome State Fault Refusal) : Option Refusal :=
  match o with
  | .next _ => none
  | .fault _ => none
  | .refused r => some r

/-! ### Well-formed terms: one ill-formed term for each check -/

theorem test_config_default : Config.default.wellFormed = true := by decide
theorem test_config_no_width : Config.wellFormed ⟨0, 0x00000, 0x40000, 0x80000⟩ = false := by decide
theorem test_config_too_wide : Config.dimwOk ⟨17, 0x0, 0x100, 0x1000⟩ = false := by decide
theorem test_config_base_not_aligned : Config.basesAligned ⟨8, 0x00000, 0x40002, 0x80000⟩ = false := by decide
theorem test_config_overlap : Config.apart ⟨9, 0x00000, 0x40000, 0x80000⟩ .gmem .bmem = false := by decide
theorem test_config_reg_overlap : Config.apart ⟨8, 0x40000, 0x40000, 0x80000⟩ .reg .gmem = false := by decide
theorem test_flat_byte : FlatAccess.wellFormed .default ⟨.read, 0x00004, 8, 0⟩ = false := by decide
theorem test_flat_misaligned : FlatAccess.wellFormed .default ⟨.read, 0x00006, 32, 0⟩ = false := by decide
theorem test_flat_nowhere : FlatAccess.wellFormed .default ⟨.read, 0x00018, 32, 0⟩ = false := by decide
theorem test_move_ill_formed : Move.wellFormed .default (.flat ⟨.write, 0x00005, 32, 0⟩) = false := by decide

/-! ### Decoding: words written out from 30_encoding.md R80, R82, R83 -/

theorem test_decode_pack : decode 0b00000000000000000000000000000001#32 = .pack 0#30 := by decide
theorem test_decode_unpack : decode 0b00000000000000000000000000000010#32 = .unpack 0#30 := by decide
theorem test_decode_rsv0 : decode 0b00000000000000000000000000000000#32 = .rsv0 0#30 := by decide
theorem test_decode_rsv3 : decode 0b00000000000000000000000000000011#32 = .rsv3 0#30 := by decide
theorem test_decode_ignored_bits : decode 0b10000000000000000000000000000101#32 = .pack 0x20000001#30 := by decide
theorem test_table_word_short : decodeTableWord 2 0b1110 = some (.unpack 0#30) := by decide
theorem test_table_word_long : decodeTableWord 40 1 = none := by decide

/-! ### Commands -/

/-- R120: `W = 0` is InvalidInput at the start check, whatever GLEN is, and BLEN is cleared. -/
theorem test_pack_no_width :
    after (exec (.pack 0) (loaded 0 3 0 7 [] [])) (fun t => (statusWord t.status, t.blen)) = some (0x6#32, 0) := by decide

/-- T1: the start check of PACK passes. -/
theorem test_pack_starts : after (exec (.pack 0) (loaded 10 1 10 7 [] []))
    (fun t => (statusWord t.status, t.opl, t.blen)) = some (0x1#32, .pack, 7) := by decide

/-- T3: one byte where two are expected. -/
theorem test_unpack_length_mismatch : after (exec (.unpack 0) (loaded 10 1 77 1 [] [(0, 0x4D#8)]))
    (fun t => (statusWord t.status, t.glen, t.gmem)) = some (0xA#32, 0, []) := by decide

/-- R141: `W = 0` with `BLEN = 5` is InvalidInput: the dimension test is first. -/
theorem test_unpack_dimensions_first :
    after (exec (.unpack 0) (loaded 0 1 77 5 [] [])) (fun t => statusWord t.status) = some 0x6#32 := by decide

/-- R83: a reserved command does not clear DONE or ERR. -/
theorem test_rsv0_keeps_status : after (exec (.rsv0 0) { loaded 1 1 1 1 [] [] with status := ⟨false, true, .lengthMismatch⟩ })
    (fun t => statusWord t.status) = some 0xA#32 := by decide
theorem test_rsv3_keeps_status : after (exec (.rsv3 5) { loaded 1 1 1 1 [] [] with status := ⟨false, true, .invalidInput⟩ })
    (fun t => statusWord t.status) = some 0x6#32 := by decide

/-! ### Element steps -/

/-- T1 step 8: the byte is full. -/
theorem test_pack_full_byte : after (step (running .pack 10 1 7 0x4C#8 [(7, 0x0FF#9)] []))
    (fun t => (t.bmem, t.acc, t.bi, t.c)) = some ([(0, 0x4D#8)], 0#8, 1, 8) := by decide

/-- T1 step 10: the row ends, and with it the operation. -/
theorem test_pack_last_pixel : after (step (running .pack 10 1 9 0#8 [(9, 0x1FF#9)] [(0, 0x4D#8)]))
    (fun t => (t.bmem, t.blen, statusWord t.status)) = some ([(0, 0x4D#8), (1, 0x40#8)], 2, 0x2#32) := by decide

/-- R113: a row that ends too soon. -/
theorem test_pack_short_row : after (step (running .pack 10 1 2 0x40#8 [(2, 0x100#9)] []))
    (fun t => (t.bmem, t.blen, statusWord t.status, t.c)) = some ([], 0, 0x6#32, 2) := by decide

/-- T2 step 1: the byte is fetched, and bit 7 is taken. -/
theorem test_unpack_first_pixel : after (step (running .unpack 10 1 0 0#8 [] [(0, 0x4D#8), (1, 0x40#8)]))
    (fun t => (t.gmem, t.acc, t.bi, t.c)) = some ([(0, 0x000#9)], 0x4D#8, 0, 1) := by decide

/-- T2 step 10: bit 6 of the byte held, with `eol`, and the operation ends. -/
theorem test_unpack_last_pixel : after (step (running .unpack 10 1 9 0x40#8 [] [(0, 0x4D#8), (1, 0x40#8)]))
    (fun t => (t.gmem, t.glen, statusWord t.status)) = some ([(9, 0x1FF#9)], 10, 0x2#32) := by decide

/-- V2, V4: no midpoint threshold. -/
theorem test_bin_smallest : bin 0x01#8 = true ∧ bin 0x7F#8 = true ∧ bin 0x00#8 = false := by decide

/-- T1, T2: the pure functions. -/
theorem test_codec_pack : Codec.pack [[0, 255, 0, 0, 255, 255, 0, 255, 0, 255]] 10 1 = .ok [0x4D#8, 0x40#8] := by rfl
theorem test_codec_unpack :
    Codec.unpack [0x4D#8, 0x40#8] 10 1 = .ok [[0, 255, 0, 0, 255, 255, 0, 255, 0, 255]] := by rfl

/-! ### The host port and reset -/

/-- R208: `W = 266` with DIMW = 8 has written 10. -/
theorem test_write_truncates :
    after (step (sched State.reset (.hostWrite .reg 2 266#32))) (fun t => (t.width, t.height)) = some (10, 0) := by decide

/-- R89: `PXE 1, 0xFF` is (W, 0x40004, 0x1FF), and `WR CTRL, 1` is (W, 0x00000, 1). -/
theorem test_flat_pixel : after (step (sched State.reset (.flat ⟨.write, 0x40004, 32, 0x1FF#32⟩))) (fun t => t.gmem)
    = some [(1, 0x1FF#9)] := by decide
theorem test_flat_command : after (step (sched (loaded 1 1 1 0 [] []) (.flat ⟨.write, 0x00000, 32, 1#32⟩)))
    (fun t => statusWord t.status) = some 0x1#32 := by decide

/-- P1 line 13: `PXE 9, 255` is (W, 0x40024, 0x000001FF). -/
theorem test_notation_pxe : (HostLine.pxe 9 255#8).encoding .default = ⟨.write, 0x40024, 32, 0x000001FF#32⟩ := by decide

/-- R55: an access of a byte, and one at address 2, are refused by name. -/
theorem test_flat_byte_refused :
    refusalOf (step (sched State.reset (.flat ⟨.read, 0x00004, 8, 0⟩))) = some .notWholeWord := by decide
theorem test_flat_misaligned_refused :
    refusalOf (step (sched State.reset (.flat ⟨.read, 0x00002, 32, 0⟩))) = some .misaligned := by decide

/-- R53: a write while BUSY is lost, and STATUS reads 0x1. -/
theorem test_busy_write_lost : after (step (sched (running .pack 2 1 0 0 [] []) (.hostWrite .gmem 0 1#32))) (fun t => t.gmem)
    = some [] := by decide
theorem test_busy_status : after (step (sched (running .pack 2 1 0 0 [] []) (.hostRead .reg 1))) (fun t => t.replies)
    = some [0x1#32] := by decide

/-- R54: index GCAP = 65025 is outside GMEM. -/
theorem test_outside_reads_zero : after (step (sched State.reset (.hostRead .gmem 65025))) (fun t => t.replies)
    = some [0#32] := by decide

/-- R200: reset while PACK runs: DONE stays 0, BMEM is unspecified, GMEM is kept. -/
theorem test_reset_while_packing : after (step (sched (running .pack 2 1 1 0 [(0, 0#9)] [(5, 1#8)]) .reset))
    (fun t => (statusWord t.status, t.gmem, t.bmem)) = some (0#32, [(0, 0#9)], []) := by decide

/-- The word a command is placed with runs as the first instruction after reset. -/
theorem test_placed_word : after (step (State.reset.withFetchWord 32 1)) (fun t => statusWord t.status) = some 0x6#32 := by
  decide

/-! ### States that meet the invariant -/

theorem loaded_inv {w h gl bl : Nat} {g : Memory 9} {b : Memory 8} (hw : w < 256) (hh : h < 256) (hg : gl < 65536)
    (hb : bl < 65536) (mg : Memory.wf (gcap .default) g = true) (mb : Memory.wf (bcap .default) b = true) :
    (loaded w h gl bl g b).Inv := by
  have e8 : 0 < 2 ^ Config.default.dimw := by decide
  have e16 : 0 < 2 ^ lenw Config.default := by decide
  exact ⟨⟨hw, hh, hg, hb, e8, e8, e16, e16⟩, ⟨mg, mb⟩,
    ⟨(by rintro ⟨h, -⟩; cases h), fun h => absurd rfl h, fun _ => rfl, (by intro h; cases h)⟩,
    fun h => (by cases h), fun h => (by cases h), fun h => (by cases h)⟩

theorem running_widths {o : Operation} {w h c : Nat} {acc : Byte} {g : Memory 9} {b : Memory 8} (hc : c < w) (hw : w < 256)
    (hh : h < 256) : (running o w h c acc g b).WidthsOk := by
  have e8 : 2 ^ Config.default.dimw = 256 := rfl
  have e16 : 2 ^ lenw Config.default = 65536 := rfl
  have hwh : w * h < 2 ^ (2 * 8) := mul_lt_two_pow (d := 8) hw hh
  have hb : h * ceil8 w < 2 ^ (2 * 8) := mul_lt_two_pow (d := 8) hh (lt_of_le_of_lt (ceil8_le w) hw)
  constructor
  · show w < 2 ^ Config.default.dimw
    omega
  · show h < 2 ^ Config.default.dimw
    omega
  · exact hwh
  · exact hb
  · show 0 < 2 ^ Config.default.dimw
    omega
  · show c < 2 ^ Config.default.dimw
    omega
  · show c < 2 ^ lenw Config.default
    omega
  · show c / 8 < 2 ^ lenw Config.default
    omega

theorem running_status {o : Operation} {w h c : Nat} {acc : Byte} {g : Memory 9} {b : Memory 8} :
    (running o w h c acc g b).StatusOk :=
  ⟨(by rintro ⟨-, h⟩; cases h), fun h => absurd rfl h, fun _ => rfl, (by intro h; cases h)⟩

theorem running_cursor {o : Operation} {w h c : Nat} {acc : Byte} {g : Memory 9} {b : Memory 8} (hc : c < w) (hh : 0 < h) :
    (running o w h c acc g b).CursorOk := by
  refine ⟨hh, hc, ?_, ?_⟩
  · show c = 0 * w + c
    omega
  · show c / 8 = 0 * ceil8 w + c / 8
    omega

theorem packing_inv {w h c : Nat} {acc : Byte} {g : Memory 9} {b : Memory 8} (hc : c < w) (hw : w < 256) (hh : 0 < h)
    (hh' : h < 256) (hc8 : c < 8) (mg : Memory.wf (gcap .default) g = true) (mb : Memory.wf (bcap .default) b = true)
    (unknown : ∀ i < c, Memory.read? g i = none) (ha : ∀ p ≤ 7 - c, acc.getLsbD p = false) :
    (running .pack w h c acc g b).Inv := by
  refine ⟨running_widths hc hw hh', ⟨mg, mb⟩, running_status, fun _ => running_cursor hc hh,
    fun _ _ => ⟨rfl, ?_, ?_, ?_, ?_⟩, fun _ h => (by cases h)⟩
  · intro r k _ hk e he
    have : Memory.read? g (r * w + k) = none := unknown _ hk
    have he : Memory.read? g (r * w + k) = some e := he
    rw [this] at he
    cases he
  · intro j _ hj e he
    have hj : j < c := hj
    have he : Memory.read? g (0 * w + j) = some e := he
    rw [unknown _ (by omega)] at he
    cases he
  · intro p hp
    have hp : p ≤ 7 - c % 8 := hp
    exact ha p (by omega)
  · intro r k _ hk
    have : r * ceil8 w + k < c / 8 := hk
    omega

theorem unpacking_inv {w h c : Nat} {acc : Byte} {g : Memory 9} {b : Memory 8} (hc : c < w) (hw : w < 256) (hh : 0 < h)
    (hh' : h < 256) (hc8 : c < 8) (mg : Memory.wf (gcap .default) g = true) (mb : Memory.wf (bcap .default) b = true)
    (known : ∀ i < c, Memory.read? g i = some (mkEntry false (white (acc.getLsbD (7 - i)))))
    (hb : c = 0 ∨ Memory.read? b 0 = some acc) : (running .unpack w h c acc g b).Inv := by
  refine ⟨running_widths hc hw hh', ⟨mg, mb⟩, running_status, fun _ => running_cursor hc hh,
    fun _ h => (by cases h), fun _ _ => ⟨rfl, ?_, ?_⟩⟩
  · intro hl x hx
    have hl : c % 8 ≠ 0 := hl
    have hx : Memory.read? b (c / 8) = some x := hx
    rw [Nat.div_eq_of_lt hc8] at hx
    obtain h | h := hb
    · omega
    · exact (Option.some.inj (h.symm.trans hx))
  · intro r k hk hlt
    have hk : k < w := hk
    have hlt : r * w + k < c := hlt
    obtain rfl : r = 0 := by
      rcases Nat.eq_zero_or_pos r with h | h
      · exact h
      · have := Nat.mul_le_mul_right w h
        omega
    have hkc : k < c := by omega
    refine ⟨mkEntry false (white (acc.getLsbD (7 - k))), ?_, ?_, ?_, ?_⟩
    · show Memory.read? g (0 * w + k) = _
      rw [Nat.zero_mul, Nat.zero_add]
      exact known k hkc
    · show entryEol _ = decide (k + 1 = w)
      rw [entryEol_mkEntry, eq_comm, decide_eq_false_iff_not]
      omega
    · rw [entrySample_mkEntry]
      cases acc.getLsbD (7 - k) <;> simp
    · intro x hx
      have hx : Memory.read? b (0 * ceil8 w + k / 8) = some x := hx
      rw [Nat.zero_mul, Nat.zero_add, Nat.div_eq_of_lt (by omega)] at hx
      obtain h | h := hb
      · omega
      · obtain rfl : acc = x := Option.some.inj (h.symm.trans hx)
        have h2 : bitPos k = 7 - k := by unfold bitPos lane; omega
        rw [entrySample_mkEntry, h2]

/-! ### Witnesses: for every obligation with hypotheses, a state and operands that meet all of them -/

theorem witness_DecodeInvertsEncode : ∃ i : Instr, i.wellFormed = true := ⟨.unpack 5, rfl⟩

theorem witness_IgnoredBitsChangeNothing : ∃ w w' : Word, w ≠ w' ∧ w &&& 0x3#32 = w' &&& 0x3#32 :=
  ⟨0x80000001#32, 0x1#32, by decide⟩

theorem witness_StepRunsTheDecodedCommand : ∃ (s : State) (w : Word) (ms : List Move),
    s.pending = .hostWrite .reg 0 w :: ms := ⟨sched State.reset (.hostWrite .reg 0 1#32), _, _, rfl⟩

theorem witness_PlacedCommandRunsNext : ∃ (nbits w : Nat) (i : Instr), decodeTableWord nbits w = some i :=
  ⟨32, 2, .unpack 0, by decide⟩

theorem witness_ReservedCommandsDoNothing :
    (0xFFFFFFFC#32 &&& 0x3#32 = 0x0#32) ∧ (0xFFFFFFFF#32 &&& 0x3#32 = 0x3#32) := by decide

theorem witness_PackStartCheckInOrder : ∃ s1 s2 s3 s4 : State,
    (s1.status.busy = false ∧ s1.width = 0) ∧ (s2.status.busy = false ∧ 0 < s2.width ∧ s2.height = 0) ∧
    (s3.status.busy = false ∧ 0 < s3.width ∧ 0 < s3.height ∧ s3.glen ≠ s3.width * s3.height) ∧
    (s4.status.busy = false ∧ 0 < s4.width ∧ 0 < s4.height ∧ s4.glen = s4.width * s4.height) :=
  ⟨loaded 0 1 0 0 [] [], loaded 1 0 0 0 [] [], loaded 2 3 5 0 [] [], loaded 2 3 6 0 [] [], by decide⟩

theorem witness_UnpackStartCheckInOrder : ∃ s1 s2 s3 s4 : State,
    (s1.status.busy = false ∧ s1.width = 0) ∧ (s2.status.busy = false ∧ 0 < s2.width ∧ s2.height = 0) ∧
    (s3.status.busy = false ∧ 0 < s3.width ∧ 0 < s3.height ∧ s3.blen ≠ s3.height * ((s3.width + 7) / 8)) ∧
    (s4.status.busy = false ∧ 0 < s4.width ∧ 0 < s4.height ∧ s4.blen = s4.height * ((s4.width + 7) / 8)) :=
  ⟨loaded 0 1 0 5 [] [], loaded 1 0 0 0 [] [], loaded 10 1 0 1 [] [], loaded 10 1 0 2 [] [], by decide⟩

theorem witness_PackStarts : ∃ s : State,
    s.status.busy = false ∧ 0 < s.width ∧ 0 < s.height ∧ s.glen = s.width * s.height :=
  ⟨loaded 255 255 65025 0 [] [], by decide⟩

theorem witness_UnpackStarts : ∃ s : State,
    s.status.busy = false ∧ 0 < s.width ∧ 0 < s.height ∧ s.blen = s.height * ((s.width + 7) / 8) :=
  ⟨loaded 255 255 0 8160 [] [], by decide⟩

theorem witness_CommandWhileBusyIsIgnored : ∃ s : State, s.status.busy = true := ⟨running .pack 1 1 0 0 [] [], rfl⟩

theorem witness_CommandFrame : ∃ (s t1 t2 t3 : State), exec (.pack 0) s = .next t1 ∧ exec (.unpack 0) s = .next t2 ∧
    exec (.rsv3 0) s = .next t3 ∧ t1.status.busy = true ∧ t2.blen = s.blen := ⟨loaded 1 1 1 0 [] [], _, _, _, rfl, rfl, rfl, by decide⟩

theorem witness_NothingLeftBehindReachesAnOperation : ∃ (s t : State) (st : Status),
    s.status.busy = false ∧ st.busy = false ∧ exec (.pack 0) s = .next t ∧ t.status.busy = true :=
  ⟨loaded 1 1 1 0 [] [], _, ⟨false, true, .lengthMismatch⟩, rfl, rfl, rfl, by decide⟩

/-- The hypotheses of `PackElementStep` on the entry, at the state before the step. -/
def packReads (s : State) (e : Entry) (d : Nat) : Prop :=
  (Memory.read? s.gmem s.gi = some e ∧ d = s.draws) ∨
    (Memory.read? s.gmem s.gi = none ∧ e = (Config.freeWord s.draws).setWidth 9 ∧ d = s.draws + 1)

/-- A known entry that fails the row check, inside a row and at its end. -/
theorem witness_PackElementStep_fails : ∃ (s s' : State) (e e' : Entry),
    (s.Inv ∧ s.pending = [] ∧ s.status.busy = true ∧ s.opl = .pack ∧ packReads s e s.draws ∧
      e.getLsbD 8 ≠ decide (s.c = s.width - 1) ∧ s.c ≠ s.width - 1) ∧
    (s'.Inv ∧ s'.pending = [] ∧ s'.status.busy = true ∧ s'.opl = .pack ∧ packReads s' e' s'.draws ∧
      e'.getLsbD 8 ≠ decide (s'.c = s'.width - 1) ∧ s'.c = s'.width - 1) :=
  ⟨running .pack 2 1 0 0 [(0, 0x100#9)] [], running .pack 1 1 0 0 [(0, 0x0FF#9)] [], 0x100#9, 0x0FF#9,
    ⟨packing_inv (by decide) (by decide) (by decide) (by decide) (by decide) (by decide) (by decide) (by decide)
      (by decide), by simp only [packReads]; decide⟩,
    ⟨packing_inv (by decide) (by decide) (by decide) (by decide) (by decide) (by decide) (by decide) (by decide)
      (by decide), by simp only [packReads]; decide⟩⟩

/-- Inside a row and inside a byte; at the eighth column; at the end of a row that is not the last; at the last pixel. -/
theorem witness_PackElementStep_packs : ∃ s1 s2 s3 s4 : State,
    (∀ s ∈ [s1, s2, s3, s4], s.Inv) ∧
    (∀ s ∈ [s1, s2, s3, s4], s.pending = [] ∧ s.status.busy = true ∧ s.opl = .pack ∧
      ∃ e, Memory.read? s.gmem s.gi = some e ∧ e.getLsbD 8 = decide (s.c = s.width - 1)) ∧
    (s1.c % 8 ≠ 7 ∧ s1.c ≠ s1.width - 1) ∧ (s2.c % 8 = 7 ∧ s2.c ≠ s2.width - 1) ∧
    (s3.c = s3.width - 1 ∧ s3.r + 1 < s3.height) ∧ (s4.c = s4.width - 1 ∧ ¬ s4.r + 1 < s4.height) := by
  refine ⟨running .pack 2 1 0 0 [(0, 0#9)] [], running .pack 9 1 7 0x4C#8 [(7, 0x0FF#9)] [],
    running .pack 1 2 0 0 [(0, 0x1FF#9)] [], running .pack 1 1 0 0 [(0, 0x1FF#9)] [], ?_, ?_, by decide⟩
  · simp only [List.forall_mem_cons, List.not_mem_nil, false_imp_iff, implies_true, and_true]
    refine ⟨?_, ?_, ?_, ?_⟩ <;> exact packing_inv (by decide) (by decide) (by decide) (by decide) (by decide) (by decide)
      (by decide) (by decide) (by decide)
  · simp only [List.forall_mem_cons, List.not_mem_nil, false_imp_iff, implies_true, and_true]
    refine ⟨⟨rfl, rfl, rfl, 0#9, ?_⟩, ⟨rfl, rfl, rfl, 0x0FF#9, ?_⟩, ⟨rfl, rfl, rfl, 0x1FF#9, ?_⟩,
      ⟨rfl, rfl, rfl, 0x1FF#9, ?_⟩⟩ <;> decide

/-- An entry never written, which is drawn: the row check goes one way or the other. -/
theorem witness_PackElementStep_draws : ∃ s : State, s.Inv ∧ s.pending = [] ∧ s.status.busy = true ∧ s.opl = .pack ∧
    packReads s ((Config.freeWord 0).setWidth 9) 1 :=
  ⟨running .pack 1 1 0 0 [] [], packing_inv (by decide) (by decide) (by decide) (by decide) (by decide) (by decide)
    (by decide) (by decide) (by decide), rfl, rfl, rfl, .inr ⟨rfl, rfl, rfl⟩⟩

/-- A known byte, one never written, and one held; inside a row, at the end of a row, at the last pixel. -/
theorem witness_UnpackElementStep : ∃ s1 s2 s3 s4 : State,
    (∀ s ∈ [s1, s2, s3, s4], s.Inv) ∧
    (∀ s ∈ [s1, s2, s3, s4], s.pending = [] ∧ s.status.busy = true ∧ s.opl = .unpack) ∧
    (s1.c % 8 = 0 ∧ Memory.read? s1.bmem s1.bi = some 0x4D#8 ∧ s1.c ≠ s1.width - 1) ∧
    (s2.c % 8 = 0 ∧ Memory.read? s2.bmem s2.bi = none ∧ s2.c = s2.width - 1 ∧ s2.r + 1 < s2.height) ∧
    (s3.c % 8 ≠ 0 ∧ s3.c ≠ s3.width - 1) ∧ (s4.c % 8 ≠ 0 ∧ s4.c = s4.width - 1 ∧ ¬ s4.r + 1 < s4.height) := by
  refine ⟨running .unpack 10 1 0 0 [] [(0, 0x4D#8)], running .unpack 1 2 0 0 [] [],
    running .unpack 10 1 1 0x4D#8 [(0, 0#9)] [(0, 0x4D#8)], running .unpack 2 1 1 0x4D#8 [(0, 0#9)] [(0, 0x4D#8)],
    ?_, ?_, by decide⟩
  · simp only [List.forall_mem_cons, List.not_mem_nil, false_imp_iff, implies_true, and_true]
    refine ⟨?_, ?_, ?_, ?_⟩ <;> exact unpacking_inv (by decide) (by decide) (by decide) (by decide) (by decide) (by decide)
      (by decide) (by decide) (by decide)
  · simp only [List.forall_mem_cons, List.not_mem_nil, false_imp_iff, implies_true, and_true]
    decide

theorem witness_ScheduledTurnIsTheBlocksTurn : ∃ (s t : State) (ms : List Move), s.pending = .block :: ms ∧
    step { s with pending := [] } = .next t :=
  ⟨sched (running .pack 2 1 0 0 [(0, 0#9)] []) .block, _, [], rfl, rfl⟩

theorem witness_ElementStepMakesProgress : ∃ s s' : State,
    (s.Inv ∧ s.status.busy = true ∧ s.pending = []) ∧ (s'.status.busy = true ∧ s'.pending = [.block]) ∧
    s' = { s with pending := s'.pending } :=
  ⟨running .unpack 1 1 0 0 [] [], sched (running .unpack 1 1 0 0 [] []) .block,
    ⟨unpacking_inv (by decide) (by decide) (by decide) (by decide) (by decide) (by decide) (by decide) (by decide)
      (by decide), rfl, rfl⟩, ⟨rfl, rfl⟩, rfl⟩

theorem witness_StepKeepsStatusInvariants : ∃ s t : State, s.StatusOk ∧ step s = .next t ∧ t.status ≠ s.status :=
  ⟨running .unpack 1 1 0 0 [] [(0, 0x80#8)], _, running_status, rfl, by decide⟩

/-- A running state with the invariant, and the state its step leads to: for the statements of section Invariants. -/
theorem witness_StepKeepsInvariant : ∃ s t : State, s.Inv ∧ s.status.busy = true ∧ step s = .next t ∧
    t.status.busy = true :=
  ⟨running .pack 9 1 7 0x4C#8 [(7, 0x0FF#9)] [], _, packing_inv (by decide) (by decide) (by decide) (by decide)
    (by decide) (by decide) (by decide) (by decide) (by decide), rfl, rfl, by decide⟩

theorem witness_StepKeepsRegisterWidths : ∃ s t : State, s.WidthsOk ∧ step s = .next t ∧ t.width ≠ s.width :=
  ⟨sched State.reset (.hostWrite .reg 2 0xFFFFFFFF#32), _, (by constructor <;> decide), rfl, by decide⟩

theorem witness_StepKeepsMemoryCanonical : ∃ s t : State, s.MemoryOk ∧ step s = .next t ∧ t.gmem ≠ s.gmem :=
  ⟨sched State.reset (.hostWrite .gmem 65024 0x1FF#32), _, ⟨rfl, rfl⟩, rfl, by decide⟩

theorem witness_BlockIndicesAreInRange : ∃ s : State, s.Inv ∧ s.status.busy = true :=
  ⟨running .pack 9 1 7 0x4C#8 [] [], packing_inv (by decide) (by decide) (by decide) (by decide) (by decide) (by decide)
    (by decide) (by decide) (by decide), rfl⟩

/-- A command, an element step that completes, and a reset: each changes STATUS. -/
theorem witness_OnlyTheseWriteStatus : ∃ s1 s2 s3 t1 t2 t3 : State,
    (step s1 = .next t1 ∧ t1.status ≠ s1.status ∧ s1.NextIsCommand) ∧
    (step s2 = .next t2 ∧ t2.status ≠ s2.status ∧ s2.NextIsElementStep) ∧
    (step s3 = .next t3 ∧ t3.status ≠ s3.status ∧ s3.NextIsReset) :=
  ⟨sched State.reset (.hostWrite .reg 0 1#32), running .unpack 1 1 0 0 [] [(0, 0x80#8)],
    sched (running .pack 1 1 0 0 [] []) .reset, _, _, _,
    ⟨rfl, by decide, rfl, 1#32, .inl rfl, _, [], rfl, .inl rfl⟩, ⟨rfl, by decide, rfl, .inl rfl⟩,
    ⟨rfl, by decide, [], .inl rfl⟩⟩

/-- A command that starts, an element step, and a reset: each changes a hidden register. -/
theorem witness_OnlyTheseMoveTheCursor : ∃ s1 s2 s3 t1 t2 t3 : State,
    (step s1 = .next t1 ∧ t1.opl ≠ s1.opl ∧ s1.NextIsCommand) ∧ (step s2 = .next t2 ∧ t2.c ≠ s2.c ∧ s2.NextIsElementStep) ∧
    (step s3 = .next t3 ∧ t3.c ≠ s3.c ∧ s3.NextIsReset) :=
  ⟨sched (loaded 1 1 0 1 [] []) (.hostWrite .reg 0 2#32), running .unpack 2 1 0 0 [] [(0, 0x80#8)],
    sched (running .pack 2 1 1 0 [] []) .powerUp, _, _, _,
    ⟨rfl, by decide, rfl, 2#32, .inr rfl, _, [], rfl, .inl rfl⟩, ⟨rfl, by decide, rfl, .inl rfl⟩,
    ⟨rfl, by decide, [], .inr rfl⟩⟩

/-- A flat host write, each command failing its start check, an element step that completes, a reset. -/
theorem witness_OnlyTheseWriteOperandRegisters : ∃ s1 s2 s3 s4 s5 t1 t2 t3 t4 t5 : State,
    (step s1 = .next t1 ∧ t1.x .width ≠ s1.x .width ∧ s1.NextWrites .reg 2 10#32) ∧
    (step s2 = .next t2 ∧ t2.x .blen ≠ s2.x .blen ∧ s2.NextWrites .reg 0 1#32 ∧ t2.status.err ≠ .noError) ∧
    (step s3 = .next t3 ∧ t3.x .glen ≠ s3.x .glen ∧ s3.NextWrites .reg 0 2#32 ∧ t3.status.err ≠ .noError) ∧
    (step s4 = .next t4 ∧ t4.x .glen ≠ s4.x .glen ∧ s4.NextIsElementStep) ∧
    (step s5 = .next t5 ∧ t5.x .height ≠ s5.x .height ∧ s5.NextIsReset) :=
  ⟨sched State.reset (.flat ⟨.write, 0x00008, 32, 10#32⟩), sched (loaded 0 1 0 5 [] []) (.hostWrite .reg 0 1#32),
    sched (loaded 10 1 77 1 [] []) (.hostWrite .reg 0 2#32),
    { running .unpack 1 1 0 0 [] [(0, 0x80#8)] with glen := 9 }, sched (loaded 1 1 1 1 [] []) .reset, _, _, _, _, _,
    ⟨rfl, by decide, _, [], rfl, .inr ⟨0x00008, by decide, rfl⟩⟩,
    ⟨rfl, by decide, ⟨_, [], rfl, .inl rfl⟩, by decide⟩, ⟨rfl, by decide, ⟨_, [], rfl, .inl rfl⟩, by decide⟩,
    ⟨rfl, by decide, rfl, .inl rfl⟩, ⟨rfl, by decide, [], .inl rfl⟩⟩

/-- A host write, an element step of each operation, a reset that interrupts, and power-up. -/
theorem witness_OnlyTheseWriteMemory : ∃ s1 s2 s3 s4 s5 t1 t2 t3 t4 t5 : State,
    (step s1 = .next t1 ∧ Memory.read? t1.gmem 0 ≠ Memory.read? s1.gmem 0) ∧
    (step s2 = .next t2 ∧ Memory.read? t2.gmem 0 ≠ Memory.read? s2.gmem 0 ∧ s2.NextIsElementStep) ∧
    (step s3 = .next t3 ∧ Memory.read? t3.bmem 0 ≠ Memory.read? s3.bmem 0 ∧ s3.NextIsElementStep) ∧
    (step s4 = .next t4 ∧ Memory.read? t4.bmem 5 ≠ Memory.read? s4.bmem 5 ∧ s4.NextIsReset) ∧
    (step s5 = .next t5 ∧ Memory.read? t5.gmem 5 ≠ Memory.read? s5.gmem 5 ∧ s5.NextIsReset) :=
  ⟨sched State.reset (.hostWrite .gmem 0 0x1FF#32), running .unpack 1 1 0 0 [] [(0, 0x80#8)],
    running .pack 1 1 0 0 [(0, 0x1FF#9)] [], sched (running .pack 1 1 0 0 [] [(5, 1#8)]) .reset,
    sched (loaded 1 1 1 1 [(5, 1#9)] []) .powerUp, _, _, _, _, _, ⟨rfl, by decide⟩, ⟨rfl, by decide, rfl, .inl rfl⟩,
    ⟨rfl, by decide, rfl, .inl rfl⟩, ⟨rfl, by decide, [], .inl rfl⟩, ⟨rfl, by decide, [], .inr rfl⟩⟩

theorem witness_PackResultInClosedForm : ∃ s t : State, s.Inv ∧ s.pending = [] ∧ s.status.busy = true ∧ s.opl = .pack ∧
    s.GridOk ∧ step s = .next t ∧ t.status.busy = false := by
  refine ⟨running .pack 1 1 0 0 [(0, 0x1FF#9)] [], _, packing_inv (by decide) (by decide) (by decide) (by decide)
    (by decide) (by decide) (by decide) (by decide) (by decide), rfl, rfl, rfl, ?_, rfl, by decide⟩
  intro r c hr hc
  have hr : r < 1 := hr
  have hc : c < 1 := hc
  obtain rfl : r = 0 := by omega
  obtain rfl : c = 0 := by omega
  exact ⟨0x1FF#9, by decide⟩

theorem witness_UnpackResultInClosedForm : ∃ s t : State, s.Inv ∧ s.pending = [] ∧ s.status.busy = true ∧
    s.opl = .unpack ∧ step s = .next t ∧ t.status.busy = false ∧ Memory.read? t.bmem 0 = some 0x80#8 :=
  ⟨running .unpack 1 1 0 0 [] [(0, 0x80#8)], _, unpacking_inv (by decide) (by decide) (by decide) (by decide) (by decide)
    (by decide) (by decide) (by decide) (by decide), rfl, rfl, rfl, rfl, by decide⟩

theorem witness_PackOperationComputesPack : ∃ (s : State) (es : List Entry) (p : List Byte),
    s.Inv ∧ s.status.busy = false ∧ s.pending = [] ∧ Memory.prefix? s.gmem s.glen = some es ∧
    (cutRows es).2 = [] ∧ Codec.pack (cutRows es).1 s.width s.height = .ok p :=
  ⟨loaded 1 2 2 0 [(0, 0x1FF#9), (1, 0x100#9)] [], [0x1FF#9, 0x100#9], [0x80#8, 0x00#8],
    loaded_inv (by decide) (by decide) (by decide) (by decide) (by decide) (by decide), rfl, rfl, by decide, by decide,
    by rfl⟩

theorem witness_UnpackOperationComputesUnpack : ∃ (s : State) (b : List Byte) (rows : List (List Byte)),
    s.Inv ∧ s.status.busy = false ∧ s.pending = [] ∧ Memory.prefix? s.bmem s.blen = some b ∧
    Codec.unpack b s.width s.height = .ok rows :=
  ⟨loaded 2 1 0 1 [] [(0, 0x7F#8)], [0x7F#8], [[0x00#8, 0xFF#8]],
    loaded_inv (by decide) (by decide) (by decide) (by decide) (by decide) (by decide), rfl, rfl, by decide, by rfl⟩

theorem witness_PackOperationStopsAtRaggedRow : ∃ (s : State) (es : List Entry) (i : Nat),
    s.Inv ∧ s.status.busy = false ∧ s.pending = [] ∧ Memory.prefix? s.gmem s.glen = some es ∧
    0 < s.width ∧ 0 < s.height ∧ s.glen = s.width * s.height ∧ i < s.glen ∧
    (es.getD i 0#9).getLsbD 8 ≠ decide (i % s.width = s.width - 1) ∧
    (∀ j < i, (es.getD j 0#9).getLsbD 8 = decide (j % s.width = s.width - 1)) :=
  ⟨loaded 2 1 2 0 [(0, 0x0FF#9), (1, 0x0FF#9)] [], [0x0FF#9, 0x0FF#9], 1,
    loaded_inv (by decide) (by decide) (by decide) (by decide) (by decide) (by decide), rfl, rfl, by decide, by decide⟩

theorem witness_EveryOperationCompletes : ∃ s : State, s.Inv ∧ s.status.busy = true ∧ s.pending = [] :=
  ⟨running .pack 9 1 7 0x4C#8 [] [], packing_inv (by decide) (by decide) (by decide) (by decide) (by decide) (by decide)
    (by decide) (by decide) (by decide), rfl, rfl⟩

theorem witness_PackThenUnpackRoundTrips : ∃ (s : State) (rows : List (List Byte)),
    s.Inv ∧ s.status.busy = false ∧ s.pending = [] ∧ 0 < s.width ∧ 0 < s.height ∧
    rectangular rows s.width s.height = true ∧ s.glen = s.width * s.height ∧
    Memory.prefix? s.gmem s.glen = some (gridImage rows) :=
  ⟨loaded 1 2 2 0 [(0, 0x107#9), (1, 0x100#9)] [], [[0x07#8], [0x00#8]],
    loaded_inv (by decide) (by decide) (by decide) (by decide) (by decide) (by decide), rfl, rfl, by decide, by decide,
    by decide, by decide, by decide⟩

theorem witness_PackDependsOnItsArgumentsOnly : ∃ (s s' : State) (es : List Entry), s ≠ s' ∧
    s.Inv ∧ s'.Inv ∧ s.status.busy = false ∧ s'.status.busy = false ∧ s.pending = [] ∧ s'.pending = [] ∧
    s.width = s'.width ∧ s.height = s'.height ∧ s.glen = s'.glen ∧
    Memory.prefix? s.gmem s.glen = some es ∧ Memory.prefix? s'.gmem s'.glen = some es :=
  ⟨loaded 1 1 1 0 [(0, 0x1FF#9)] [], loaded 1 1 1 9 [(0, 0x1FF#9), (4, 0#9)] [(3, 1#8)], [0x1FF#9], by decide,
    loaded_inv (by decide) (by decide) (by decide) (by decide) (by decide) (by decide),
    loaded_inv (by decide) (by decide) (by decide) (by decide) (by decide) (by decide), by decide⟩

/-- A write and a read around one turn, of each operation. -/
theorem witness_HostCannotDisturbARunningOperation : ∃ (s s' v v' : State) (ms : List Move),
    ms = [.hostWrite .reg 0 1#32, .block, .hostRead .gmem 0] ∧
    (s.Inv ∧ s.opl = .pack ∧ s.GridOk ∧ s.status.busy = true ∧
      Host.Core.run core (ms.count .block) { s with pending := [] } = .next v ∧ v.status.busy = true) ∧
    (s'.Inv ∧ s'.opl = .unpack ∧ (∀ k, k < s'.blen → ∃ b, Memory.read? s'.bmem k = some b) ∧ s'.status.busy = true ∧
      Host.Core.run core (ms.count .block) { s' with pending := [] } = .next v' ∧ v'.status.busy = true) := by
  refine ⟨running .pack 2 1 0 0 [(0, 0x0FF#9), (1, 0x1FF#9)] [], running .unpack 2 1 0 0 [] [(0, 0x4D#8)], _, _, _, rfl,
    ⟨packing_inv (by decide) (by decide) (by decide) (by decide) (by decide) (by decide) (by decide) (by decide)
      (by decide), rfl, ?_, rfl, rfl, by decide⟩,
    ⟨unpacking_inv (by decide) (by decide) (by decide) (by decide) (by decide) (by decide) (by decide) (by decide)
      (by decide), rfl, ?_, rfl, rfl, by decide⟩⟩
  · intro r c hr hc
    have hr : r < 1 := hr
    have hc : c < 2 := hc
    obtain rfl : r = 0 := by omega
    rcases (by omega : c = 0 ∨ c = 1) with rfl | rfl
    · exact ⟨0x0FF#9, by decide⟩
    · exact ⟨0x1FF#9, by decide⟩
  · intro k hk
    have hk : k < 1 := hk
    obtain rfl : k = 0 := by omega
    exact ⟨0x4D#8, by decide⟩

/-- The last element of each memory, known. -/
theorem witness_IdleHostTransactions : ∃ (s : State) (e : Entry) (b : Byte), s.status.busy = false ∧
    65024 < gcap s.cfg ∧ Memory.read? s.gmem 65024 = some e ∧ 8159 < bcap s.cfg ∧ Memory.read? s.bmem 8159 = some b ∧
    Memory.read? s.gmem 0 = none ∧ Memory.read? s.bmem 0 = none :=
  ⟨loaded 1 1 1 1 [(65024, 0x1FF#9)] [(8159, 1#8)], 0x1FF#9, 1#8, by decide⟩

theorem witness_BusyHostTransactions : ∃ s t : State, s.StatusOk ∧ s.status.busy = true ∧ 65024 < gcap s.cfg ∧
    8159 < bcap s.cfg ∧
    step { s with pending := [.block] } = .next t ∧ t.status.busy = true :=
  ⟨running .pack 2 1 0 0 [(0, 0#9)] [], _, running_status, rfl, by decide, by decide, rfl, by decide⟩

/-- The first index outside each space, while idle. -/
theorem witness_IndicesOutsideASpace : ∃ (s : State) (i j k : Nat), s.status.busy = false ∧ i = 6 ∧ j = 65025 ∧ k = 8160 ∧
    6 ≤ i ∧ gcap s.cfg ≤ j ∧ bcap s.cfg ≤ k := ⟨State.reset, 6, 65025, 8160, by decide⟩

theorem witness_OperandRegistersAreSeparate : ∃ s s' : State,
    (s.status.busy = false ∧ s.x .glen = 65535 ∧ s.x .glen < 2 ^ 32) ∧ s'.status.busy = true :=
  ⟨loaded 255 255 65535 65535 [] [], running .pack 1 1 0 0 [] [], by decide⟩

theorem witness_StatusWordValues : ∃ s : State, s.status = ⟨true, false, .noError⟩ ∧ s.StatusOk :=
  ⟨running .pack 1 1 0 0 [] [], rfl, running_status⟩

theorem witness_UnwrittenElementReadsFresh : ∃ s : State, s.status.busy = false ∧ 65024 < gcap s.cfg ∧
    Memory.read? s.gmem 65024 = none := ⟨State.reset, by decide⟩

theorem witness_FlatBindingIsTheSpaceAndIndex : ∃ s : State, s.cfg.wellFormed = true ∧ 5 < spaceSize s.cfg .reg ∧
    65024 < spaceSize s.cfg .gmem ∧ 8159 < spaceSize s.cfg .bmem := ⟨State.reset, by decide⟩

theorem witness_HostNotationEncodesItsTransactions : ∃ (s : State) (l : HostLine), s.cfg.wellFormed = true ∧
    l = .pxe 65024 0xFF#8 ∧ l.inRange s.cfg = true := ⟨State.reset, .pxe 65024 0xFF#8, by decide⟩

theorem witness_MalformedFlatAccessIsRefused : ∃ (s s' : State) (a a' : FlatAccess),
    (s.pending = [.flat a] ∧ a.bits < 32) ∧ (s'.pending = [.flat a'] ∧ a'.bits = 32 ∧ a'.addr % 4 ≠ 0) :=
  ⟨sched State.reset (.flat ⟨.read, 4, 16, 0⟩), sched State.reset (.flat ⟨.read, 3, 32, 0⟩), _, _, ⟨rfl, by decide⟩,
    ⟨rfl, by decide⟩⟩

theorem witness_EveryMeaningfulMoveAnswers : ∃ (s : State) (mv : Move) (ms : List Move), s.pending = mv :: ms ∧
    mv = .flat ⟨.write, 0x80000, 32, 5⟩ ∧ mv.wellFormed s.cfg = true :=
  ⟨sched State.reset (.flat ⟨.write, 0x80000, 32, 5⟩), _, [], rfl, rfl, by decide⟩

theorem witness_IdleBlockHasNoStep : ∃ s : State, s.status.busy = false ∧ s.pending = [] := ⟨State.reset, rfl, rfl⟩

theorem witness_ResetEvent : ∃ s s' : State, (s.status.busy = true ∧ s.opl = .pack) ∧
    (s'.status.busy = true ∧ s'.opl = .unpack) ∧ State.reset.status.busy = false :=
  ⟨running .pack 1 1 0 0 [] [], running .unpack 1 1 0 0 [] [], by decide⟩

theorem witness_PackBitsAreThePixels : ∃ (g : List (List Byte)) (w h : Nat), 0 < w ∧ 0 < h ∧
    rectangular g w h = true := ⟨[[1, 0, 255]], 3, 1, by decide⟩

theorem witness_UnpackSamplesAreTheBits : ∃ (b : List Byte) (w h : Nat), 0 < w ∧ 0 < h ∧ b.length = h * ((w + 7) / 8) ∧
    (b ++ [0#8]).length ≠ h * ((w + 7) / 8) := ⟨[0x4D#8, 0x40#8], 10, 1, by decide⟩

theorem witness_PaddingBitsAreZero : ∃ (g : List (List Byte)) (w h : Nat) (p : List Byte),
    Codec.pack g w h = .ok p ∧ w % 8 ≠ 0 ∧ 0 < h := ⟨[[1, 0, 255]], 3, 1, [0xA0#8], by rfl, by decide⟩

theorem witness_RowsAreIndependent :
    (∃ (g g' : List (List Byte)) (p p' : List Byte), g ≠ g' ∧ Codec.pack g 1 2 = .ok p ∧ Codec.pack g' 1 2 = .ok p' ∧
      g.getD 1 [] = g'.getD 1 []) ∧
    (∃ (b b' : List Byte) (u u' : List (List Byte)), b ≠ b' ∧ Codec.unpack b 1 2 = .ok u ∧ Codec.unpack b' 1 2 = .ok u' ∧
      b.getD 1 0#8 = b'.getD 1 0#8) :=
  ⟨⟨[[0], [1]], [[1], [1]], [0x00#8, 0x80#8], [0x80#8, 0x80#8], by decide, by rfl, by rfl, by decide⟩,
    ⟨[0x00#8, 0x80#8], [0x80#8, 0x80#8], [[0x00#8], [0xFF#8]], [[0xFF#8], [0xFF#8]], by decide, by rfl, by rfl, by decide⟩⟩

theorem witness_UnpackInvertsPackOnBinaryGrids : ∃ (g : List (List Byte)) (p : List Byte),
    Codec.pack g 2 1 = .ok p ∧ ∀ row ∈ g, ∀ x ∈ row, x = 0x00#8 ∨ x = 0xFF#8 :=
  ⟨[[0x00#8, 0xFF#8]], [0x40#8], by rfl, by decide⟩

theorem witness_PackOfUnpackClearsPadding : ∃ (b b' : List Byte) (u u' : List (List Byte)),
    Codec.unpack b 2 1 = .ok u ∧ Codec.unpack b' 8 1 = .ok u' :=
  ⟨[0x7F#8], [0x81#8], [[0x00#8, 0xFF#8]], [[0xFF#8, 0, 0, 0, 0, 0, 0, 0xFF#8]], by rfl, by rfl⟩

theorem witness_CutRowsMatchTheRowCheck : ∃ es : List Entry, (cutRows es).2 = [] ∧ rectangular (cutRows es).1 2 1 = true :=
  ⟨[0x000#9, 0x1FF#9], by decide⟩

end Sys2Proof.Tests
end

section
/-! PROOFS. The operand registers seen from the host port (10_state.md R24, 20_memory.md R52, R53): what a register write,
a memory write and a register read do to each of the four. -/

namespace Sys2Proof.Machine

/-- The index of an operand register in the space REG (R52). -/
def regIndex : OperandReg → Nat
  | .width => 2
  | .height => 3
  | .glen => 4
  | .blen => 5

/-! ### The registers by name -/

@[simp] theorem State.x_setPending (s : State) (ms : List Move) (n : OperandReg) : (s.setPending ms).x n = s.x n := by
  cases n <;> rfl

@[simp] theorem State.x_setX_same (s : State) (n : OperandReg) (v : Nat) :
    (s.setX n v).x n = trunc (regWidth s.cfg n) v := by
  cases n <;> rfl

/-- No two operand registers alias (R24). -/
theorem State.x_setX_other (s : State) {n n' : OperandReg} (v : Nat) (h : n' ≠ n) : (s.setX n v).x n' = s.x n' := by
  cases n <;> cases n' <;> simp [State.x] at h ⊢

@[simp] theorem memWriteGrid_x (s : State) (i : Nat) (e : Entry) (n : OperandReg) :
    (memWriteGrid s i e).x n = s.x n := by
  cases n <;> rfl

@[simp] theorem memWriteByte_x (s : State) (i : Nat) (b : Byte) (n : OperandReg) :
    (memWriteByte s i b).x n = s.x n := by
  cases n <;> rfl

/-! ### The host's transactions on them -/

theorem step_hostWrite (s : State) (sp : Space) (i : Nat) (v : Word) (m : List Move) :
    step { s with pending := .hostWrite sp i v :: m } = hostWrite sp i v (s.setPending m) := rfl

theorem step_hostRead (s : State) (sp : Space) (i : Nat) (m : List Move) :
    step { s with pending := .hostRead sp i :: m } = .next (hostRead sp i (s.setPending m)) := rfl

theorem hostWrite_operandReg (s : State) (n : OperandReg) (v : Word) :
    hostWrite .reg (regIndex n) v s = .next (if s.status.busy then s else s.setX n v.toNat) := by
  cases n <;> rfl

theorem hostRead_operandReg (s : State) (n : OperandReg) :
    hostRead .reg (regIndex n) s = s.reply (BitVec.ofNat 32 (s.x n)) := by
  cases n <;> rfl

theorem operandWrite_idle (s : State) (m : List Move) (v : Word) (n : OperandReg) (h : s.status.busy = false) :
    step { s with pending := .hostWrite .reg (regIndex n) v :: m } = .next ((s.setPending m).setX n v.toNat) := by
  rw [step_hostWrite, hostWrite_operandReg, State.setPending_status, h]
  rfl

theorem operandWrite_busy (s : State) (m : List Move) (v : Word) (n : OperandReg) (h : s.status.busy = true) :
    step { s with pending := .hostWrite .reg (regIndex n) v :: m } = .next (s.setPending m) := by
  rw [step_hostWrite, hostWrite_operandReg, State.setPending_status, h]
  rfl

theorem operandRead (s : State) (m : List Move) (n : OperandReg) :
    step { s with pending := .hostRead .reg (regIndex n) :: m } =
      .next ((s.setPending m).reply (BitVec.ofNat 32 (s.x n))) := by
  rw [step_hostRead, hostRead_operandReg, State.x_setPending]

/-- A host write of a memory, obeyed or ignored, leaves every operand register alone (R24). -/
theorem memoryWrite_keeps_x (s : State) (m : List Move) {sp : Space} (hsp : sp ≠ .reg) (i : Nat) (v : Word)
    (n : OperandReg) : ∃ t, step { s with pending := .hostWrite sp i v :: m } = .next t ∧ t.x n = s.x n := by
  rw [step_hostWrite]
  cases sp with
  | reg => exact absurd rfl hsp
  | gmem => exact ⟨_, rfl, by split <;> simp⟩
  | bmem => exact ⟨_, rfl, by split <;> simp⟩

/-- Settles O42: each clause is the effect of the one transaction it names, read register by register. -/
theorem operandRegistersAreSeparate : Obligations.OperandRegistersAreSeparate := by
  unfold Obligations.OperandRegistersAreSeparate
  intro s m v n k bits
  have hk : k n = regIndex n := by cases n <;> rfl
  have hbits : bits n = regWidth s.cfg n := by cases n <;> rfl
  rw [hk, hbits]
  refine ⟨fun idle => ?_, fun i => ?_, ?_, operandWrite_busy s m v n⟩
  · refine ⟨_, operandWrite_idle s m v n idle, State.x_setX_same _ n _, fun n' hn' => ?_, ?_⟩
    · rw [State.x_setX_other _ _ hn', State.x_setPending]
    · simp
  · obtain ⟨t, ht, htx⟩ := memoryWrite_keeps_x s m (sp := .gmem) (by decide) i v n
    obtain ⟨u, hu, hux⟩ := memoryWrite_keeps_x s m (sp := .bmem) (by decide) i v n
    exact ⟨t, u, ht, htx, hu, hux⟩
  · exact ⟨_, _, operandRead s m n, rfl, fun fits => by rw [BitVec.toNat_ofNat, Nat.mod_eq_of_lt fits]⟩

end Sys2Proof.Machine
end

section
/-! PROOFS. The host port as whole next states (20_memory.md R52, R53, R55): a memory element read and written while idle,
every transaction while BUSY, and the flat transactions that have no meaning. -/

namespace Sys2Proof.Machine

/-! ### Memory elements while idle -/

/-- Every element after a write inside the space. -/
theorem Memory.read?_write {n cap i : Nat} (h : i < cap) (m : Memory n) (v : BitVec n) (k : Nat) :
    Memory.read? (Memory.write cap m i v) k = if k = i then some v else Memory.read? m k := by
  rw [Memory.write, if_pos h, Memory.read?_insert]

section Idle

variable {s : State} {i : Nat} (idle : s.status.busy = false)
include idle

theorem hostWrite_gmem_idle (v : Word) : hostWrite .gmem i v s = .next (memWriteGrid s i (v.setWidth 9)) := by
  simp [hostWrite, idle]

theorem hostWrite_bmem_idle (v : Word) : hostWrite .bmem i v s = .next (memWriteByte s i (v.setWidth 8)) := by
  simp [hostWrite, idle]

theorem hostRead_gmem_known {e : Entry} (hi : i < gcap s.cfg) (h : Memory.read? s.gmem i = some e) :
    hostRead .gmem i s = s.reply (e.setWidth 32) := by
  simp [hostRead, idle, hi, memReadGrid, h]

theorem hostRead_gmem_unspecified (hi : i < gcap s.cfg) (h : Memory.read? s.gmem i = none) :
    hostRead .gmem i s = s.drew.reply (((Config.freeWord s.draws).setWidth 9).setWidth 32) := by
  simp only [hostRead, idle, hi, memReadGrid, h, drawWord, Bool.false_eq_true, if_false, if_true]

theorem hostRead_bmem_known {b : Byte} (hi : i < bcap s.cfg) (h : Memory.read? s.bmem i = some b) :
    hostRead .bmem i s = s.reply (b.setWidth 32) := by
  simp [hostRead, idle, hi, memReadByte, h]

theorem hostRead_bmem_unspecified (hi : i < bcap s.cfg) (h : Memory.read? s.bmem i = none) :
    hostRead .bmem i s = s.drew.reply (((Config.freeWord s.draws).setWidth 8).setWidth 32) := by
  simp only [hostRead, idle, hi, memReadByte, h, drawWord, Bool.false_eq_true, if_false, if_true]

end Idle

/-- Settles O39: the registers by `operandWrite_idle` and `operandRead`, an element of a memory by the rule of its write
and by the two rules of its read, known and unspecified. -/
theorem idleHostTransactions : Obligations.IdleHostTransactions := by
  unfold Obligations.IdleHostTransactions
  intro s m v i idle q on
  refine ⟨rfl, rfl, operandWrite_idle s m v .width idle, operandWrite_idle s m v .height idle,
    operandWrite_idle s m v .glen idle, operandWrite_idle s m v .blen idle,
    rfl, rfl, operandRead s m .width, operandRead s m .height, operandRead s m .glen, operandRead s m .blen,
    fun hi => ?gmemWrite, fun e hi h => ?gmemKnown, fun hi h => ?gmemUnspecified,
    fun hi => ?bmemWrite, fun b hi h => ?bmemKnown, fun hi h => ?bmemUnspecified⟩
  case gmemWrite => exact ⟨_, hostWrite_gmem_idle (s := q) idle v, Memory.read?_write hi s.gmem _⟩
  case gmemKnown => exact congrArg Host.Outcome.next (hostRead_gmem_known (s := q) idle hi h)
  case gmemUnspecified => exact congrArg Host.Outcome.next (hostRead_gmem_unspecified (s := q) idle hi h)
  case bmemWrite => exact ⟨_, hostWrite_bmem_idle (s := q) idle v, Memory.read?_write hi s.bmem _⟩
  case bmemKnown => exact congrArg Host.Outcome.next (hostRead_bmem_known (s := q) idle hi h)
  case bmemUnspecified => exact congrArg Host.Outcome.next (hostRead_bmem_unspecified (s := q) idle hi h)

/-! ### While BUSY -/

section Busy

variable {s : State} (busy : s.status.busy = true)
include busy

/-- A command that comes while BUSY is ignored, whatever its `OP` (R53, R81). -/
theorem exec_busy (c : Instr) : exec c s = .next s := by
  cases c with
  | pack _ | unpack _ => exact congrArg Host.Outcome.next (accept_busy busy)
  | rsv0 _ | rsv3 _ => rfl

/-- Every host write that comes while BUSY is ignored: index 0 of REG as a command, the others by their own guard. -/
theorem hostWrite_busy (sp : Space) (i : Nat) (v : Word) : hostWrite sp i v s = .next s := by
  cases sp with
  | reg =>
    match i with
    | 0 => exact exec_busy busy _
    | 1 | _ + 6 => rfl
    | 2 | 3 | 4 | 5 => simp [hostWrite, regWrite, busy]
  | gmem | bmem => simp [hostWrite, busy]

/-- A read of a memory while BUSY answers a free word and counts one draw, at every index (R53; log 8). -/
theorem hostRead_memory_busy {sp : Space} (hsp : sp ≠ .reg) (i : Nat) :
    hostRead sp i s = s.drew.reply (Config.freeWord s.draws) := by
  cases sp with
  | reg => exact absurd rfl hsp
  | gmem | bmem => simp [hostRead, busyRead, drawWord, busy]

/-- R85's word while BUSY: BUSY is 1, and R29 makes DONE and ERR 0. -/
theorem statusWord_busy (ok : s.StatusOk) : statusWord s.status = 1#32 := by
  obtain ⟨notDone, -, noError, -⟩ := ok
  have hst : s.status = ⟨true, false, .noError⟩ := by
    rw [← busy, ← noError busy, ← Bool.eq_false_iff.mpr fun done => notDone ⟨busy, done⟩]
  rw [hst]
  decide

end Busy

/-- The pixel part of PACK's element step writes BLEN only where it completes. -/
theorem packPixel_keeps_lengths {e : Entry} {s : State} (h : (packPixel e s).status.busy = true) :
    (packPixel e s).glen = s.glen ∧ (packPixel e s).blen = s.blen := by
  obtain ⟨t, ht, -, -, -, -, -, -, -, hglen, -, -, -, -, -, hend⟩ := packPixel_cases e s
  rw [ht] at h ⊢
  obtain ⟨-, -, -, -, hblen⟩ | ⟨-, -, -, -, -, hblen⟩ | ⟨-, -, -, -, hst, -⟩ := hend
  · exact ⟨hglen, hblen⟩
  · exact ⟨hglen, hblen⟩
  · rw [hst] at h; cases h

/-- The pixel part of UNPACK's element step writes GLEN only where it completes. -/
theorem unpackPixel_keeps_lengths {cur : Byte} {s : State} (h : (unpackPixel cur s).status.busy = true) :
    (unpackPixel cur s).glen = s.glen ∧ (unpackPixel cur s).blen = s.blen := by
  obtain ⟨t, ht, -, -, -, -, -, -, -, hblen, -, -, -, -, -, hend⟩ := unpackPixel_cases cur s
  rw [ht] at h ⊢
  obtain ⟨-, -, -, -, hglen⟩ | ⟨-, -, -, -, -, hglen⟩ | ⟨-, -, -, -, hst, -⟩ := hend
  · exact ⟨hglen, hblen⟩
  · exact ⟨hglen, hblen⟩
  · rw [hst] at h; cases h

/-- An element step after which the operation still runs leaves both length registers alone (R53): a failed row check and
the last pixel, which write one, both end it. -/
theorem elementStep_keeps_lengths {s : State} (h : (elementStep s).status.busy = true) :
    (elementStep s).glen = s.glen ∧ (elementStep s).blen = s.blen := by
  cases hop : s.opl with
  | pack =>
    simp only [elementStep, hop] at h ⊢
    obtain ⟨e, d, -, ⟨-, hstep⟩ | ⟨-, hstep⟩⟩ := packStep_cases s <;> rw [hstep] at h ⊢
    · rw [raise_pack_eq] at h; cases h
    · exact packPixel_keeps_lengths h
  | unpack =>
    simp only [elementStep, hop] at h ⊢
    obtain ⟨cur, d, -, hstep⟩ := unpackStep_cases s
    rw [hstep] at h ⊢
    exact unpackPixel_keeps_lengths h

/-- Settles O40: writes by `hostWrite_busy`, reads of the registers by their own rules, reads of the memories by
`hostRead_memory_busy`, and the length registers by `elementStep_keeps_lengths`. -/
theorem busyHostTransactions : Obligations.BusyHostTransactions := by
  unfold Obligations.BusyHostTransactions
  intro s m ok busy q on
  have memoryRead {sp : Space} (hsp : sp ≠ .reg) (i : Nat) :
      on (.hostRead sp i) = .next (q.drew.reply (Config.freeWord s.draws)) :=
    congrArg Host.Outcome.next (hostRead_memory_busy (s := q) busy hsp i)
  refine ⟨hostWrite_busy (s := q) busy, rfl, ?status, operandRead s m .width, operandRead s m .height,
    operandRead s m .glen, operandRead s m .blen, fun i _ => memoryRead (by decide) i,
    fun i _ => memoryRead (by decide) i, fun t ht => ?lengths⟩
  case status =>
    rw [← statusWord_busy busy ok]
    rfl
  case lengths =>
    obtain rfl : blockTurn q = t := Host.Outcome.next.inj ht
    rw [show blockTurn q = elementStep q from if_pos busy]
    exact elementStep_keeps_lengths

/-! ### Flat transactions without a meaning -/

theorem step_flat {s : State} {a : FlatAccess} {m : List Move} (h : s.pending = .flat a :: m) :
    step s = flatAccess a (s.setPending m) := by
  rw [step, nextMove, h]
  rfl

theorem flatAccess_notWholeWord {a : FlatAccess} (h : a.bits ≠ 32) (s : State) :
    flatAccess a s = .refused .notWholeWord := by
  simp [flatAccess, h]

theorem flatAccess_misaligned {a : FlatAccess} (hbits : a.bits = 32) (haddr : a.addr % 4 ≠ 0) (s : State) :
    flatAccess a s = .refused .misaligned := by
  simp [flatAccess, hbits, haddr]

/-- Settles O47: the two checks of `flatAccess` come before the address is looked up. -/
theorem malformedFlatAccessIsRefused : Obligations.MalformedFlatAccessIsRefused := by
  unfold Obligations.MalformedFlatAccessIsRefused
  intro s a m h
  rw [step_flat h]
  exact ⟨fun narrow => flatAccess_notWholeWord (Nat.ne_of_lt narrow) _,
    fun whole off => flatAccess_misaligned whole off _⟩

end Sys2Proof.Machine
end

section
/-! PROOFS. The reserved commands (30_encoding.md R80, R82, R83): which words decode to them, and that they do nothing. -/

namespace Sys2Proof

/-! ### Decoding by OP -/

/-- The mask of spec/opcode_table.json keeps exactly OP, of any word. -/
theorem and_mask_eq_opField (w : Word) : w &&& 0x3#32 = (opField w).setWidth 32 := by
  calc w &&& 0x3#32 = (ignField w ++ opField w) &&& 0x3#32 := by rw [ignField_append_opField]
    _ = (opField w).setWidth 32 := append_and_mask _ _

/-- A word whose masked bits are the match of `k` has `k` for its OP. -/
theorem opField_eq_of_and_mask {w : Word} {k : BitVec 2} (h : w &&& 0x3#32 = k.setWidth 32) : opField w = k := by
  have widened : (opField w).setWidth 32 = k.setWidth 32 := (and_mask_eq_opField w).symm.trans h
  simpa using congrArg (BitVec.setWidth 2) widened

theorem decode_of_opField_rsv0 {w : Word} (h : opField w = 0b00#2) : decode w = .rsv0 (ignField w) := by
  simp [decode, h]

theorem decode_of_opField_rsv3 {w : Word} (h : opField w = 0b11#2) : decode w = .rsv3 (ignField w) := by
  simp [decode, h]

end Sys2Proof

namespace Sys2Proof.Machine

/-! ### What they do -/

theorem exec_rsv0 (g : BitVec 30) (s : State) : exec (.rsv0 g) s = .next s := rfl

theorem exec_rsv3 (g : BitVec 30) (s : State) : exec (.rsv3 g) s = .next s := rfl

/-- Settles O8: each reserved value of the masked bits is OP's, so the word decodes to RSV0 or RSV3, and neither does
anything. -/
theorem reservedCommandsDoNothing : Obligations.ReservedCommandsDoNothing := by
  unfold Obligations.ReservedCommandsDoNothing
  refine ⟨fun s g => ⟨exec_rsv0 g s, exec_rsv3 g s⟩, fun s w reserved => ?_⟩
  obtain h0 | h3 := reserved
  · rw [decode_of_opField_rsv0 (opField_eq_of_and_mask h0), exec_rsv0]
  · rw [decode_of_opField_rsv3 (opField_eq_of_and_mask h3), exec_rsv3]

end Sys2Proof.Machine
end

section
/-! PROOFS. The binarizer as an exact comparison with the black sentinel (40_binarizer.md R100). -/

namespace Sys2Proof.Machine

theorem bin_eq_false_iff (p : Byte) : bin p = false ↔ p = 0#8 := bne_eq_false_iff_eq

theorem bin_eq_true_iff (p : Byte) : bin p = true ↔ p ≠ 0#8 := bne_iff_ne

/-- Settles O52: `bin` is false exactly on the sentinel and true exactly off it. -/
theorem binarizerIsExactEqualityWithBlack : Obligations.BinarizerIsExactEqualityWithBlack := by
  unfold Obligations.BinarizerIsExactEqualityWithBlack
  exact fun p => ⟨(bin_eq_false_iff p).mpr, (bin_eq_true_iff p).mpr⟩

end Sys2Proof.Machine
end

section
/-! PROOFS. The element step of PACK (41_packer.md R112, R113): the ranges of the indices while an operation runs, and the
step on the entry it reads, known or drawn. -/

namespace Sys2Proof.Machine

/-! ### The cursor and the indices while an operation runs -/

section Running

variable {s : State} (inv : s.Inv) (busy : s.status.busy = true)
include inv busy

theorem State.Inv.gi_lt : s.gi < s.height * s.width := by
  obtain ⟨row, col, grid, -⟩ := inv.cursor busy
  exact grid ▸ index_lt row col

theorem State.Inv.bi_lt : s.bi < s.byteCount := by
  obtain ⟨row, col, -, byte⟩ := inv.cursor busy
  exact byte ▸ index_lt row (div8_lt_ceil8 col)

/-- The last byte's index is inside BMEM, whose size is that of the largest grid's bytes (R9, R116). -/
theorem State.Inv.bi_lt_bcap : s.bi < bcap s.cfg :=
  calc s.bi < s.byteCount := inv.bi_lt busy
    _ ≤ bcap s.cfg := Nat.mul_le_mul (Nat.le_pred_of_lt inv.widths.height)
      (ceil8_mono (Nat.le_pred_of_lt inv.widths.width))

theorem State.Inv.trunc_gi_succ : trunc (lenw s.cfg) (s.gi + 1) = s.gi + 1 :=
  trunc_of_lt (Nat.lt_of_le_of_lt (inv.gi_lt busy) (mul_lt_two_pow inv.widths.height inv.widths.width))

theorem State.Inv.trunc_bi_succ : trunc (lenw s.cfg) (s.bi + 1) = s.bi + 1 :=
  trunc_of_lt (Nat.lt_of_le_of_lt (inv.bi_lt busy)
    (mul_lt_two_pow inv.widths.height (Nat.lt_of_le_of_lt (ceil8_le _) inv.widths.width)))

/-- At the pixel (`H - 1`, `W - 1`) the byte index just advanced is the number of bytes of the grid. -/
theorem State.Inv.bi_succ_of_lastPixel (hc : s.c + 1 = s.width) (hr : s.height ≤ s.r + 1) :
    s.bi + 1 = s.byteCount := by
  obtain ⟨row, -, -, byte⟩ := inv.cursor busy
  have hheight : s.height = s.r + 1 := by omega
  have hbytes : s.rowBytes = s.c / 8 + 1 := by rw [State.rowBytes, ceil8_eq]; omega
  rw [State.byteCount, byte, hheight, Nat.succ_mul]
  omega

/-- While a pixel is named `W` is positive, so `W - 1` over the integers (R112) is the difference of numbers. -/
theorem State.Inv.eq_width_sub_one_iff : s.c = s.width - 1 ↔ s.c + 1 = s.width := by
  have col := (inv.cursor busy).col
  omega

theorem State.Inv.lastCol_eq : s.lastCol = decide (s.c = s.width - 1) := by
  simp only [inv.eq_width_sub_one_iff busy]
  rfl

theorem State.Inv.endsByte_iff : s.endsByte = true ↔ s.c % 8 = 7 ∨ s.c = s.width - 1 := by
  simp [State.endsByte, lane, inv.lastCol_eq busy]

/-- The bit of `acc` at the current column is still 0 (R32), so the pixel's bit takes its place. -/
theorem State.Inv.filledByte_getLsbD (pack : s.opl = .pack) (e : Entry) (p : Nat) :
    (filledByte e s).getLsbD p = if p = bitPos s.c then bin (entrySample e) else s.acc.getLsbD p := by
  rw [getLsbD_filledByte]
  by_cases hp : p = bitPos s.c
  · simp [hp, (inv.pack busy pack).empty _ le_rfl]
  · simp [hp]

end Running

/-! ### The step on the entry it reads -/

theorem bin_entrySample (e : Entry) : bin (entrySample e) = decide (e.setWidth 8 ≠ 0#8) := by
  rw [entrySample, ← BitVec.setWidth_eq_extractLsb' (by decide)]
  exact Bool.eq_iff_iff.mpr ((bin_eq_true_iff _).trans decide_eq_true_iff.symm)

theorem step_of_pending_nil {s : State} (h : s.pending = []) : step s = .next (blockTurn s) := by
  rw [step, nextMove, h]

theorem blockTurn_pack {s : State} (busy : s.status.busy = true) (pack : s.opl = .pack) : blockTurn s = packStep s := by
  rw [blockTurn, if_pos busy, elementStep, pack]

/-- The pixel part neither reads nor writes the count of draws. -/
theorem packPixel_setDraws (e : Entry) (s : State) (d : Nat) :
    packPixel e { s with draws := d } = (packPixel e s).env s.pending s.replies d :=
  packPixel_env s s.pending s.replies d e

/-- PACK's element step on the entry `e` it reads, with `d` the count of draws after the read: known, or drawn where it is
unspecified (R112, R113, R203). -/
theorem packStep_of_read {s : State} {e : Entry} {d : Nat}
    (read : (Memory.read? s.gmem s.gi = some e ∧ d = s.draws) ∨
      (Memory.read? s.gmem s.gi = none ∧ e = (Config.freeWord s.draws).setWidth 9 ∧ d = s.draws + 1)) :
    packStep s = if entryEol e ≠ s.lastCol then raise .pack .invalidInput { s with draws := d }
      else (packPixel e s).env s.pending s.replies d := by
  rw [← packPixel_setDraws]
  obtain ⟨known, rfl⟩ | ⟨unspecified, rfl, rfl⟩ := read
  · exact packStep_known known
  · simp only [packStep, memReadGrid, unspecified]
    rfl

/-! ### The parts of the pixel's step, within the ranges -/

section Pixel

variable {s : State} (inv : s.Inv) (busy : s.status.busy = true) (e : Entry)
include inv busy

theorem packPixel_gi : (packPixel e s).gi = s.gi + 1 := by
  obtain ⟨t, rfl, -, -, -, hgi, -⟩ := packPixel_cases e s
  exact hgi.trans (inv.trunc_gi_succ busy)

/-- Where a byte ends it is written at `bi` and nowhere else, and the next one begins; elsewhere BMEM is left alone. -/
theorem packPixel_byte :
    if s.c % 8 = 7 ∨ s.c = s.width - 1 then
      (packPixel e s).bi = s.bi + 1 ∧ (packPixel e s).acc = 0#8 ∧
        Memory.read? (packPixel e s).bmem s.bi = some (filledByte e s) ∧
        ∀ k, k ≠ s.bi → Memory.read? (packPixel e s).bmem k = Memory.read? s.bmem k
    else (packPixel e s).bi = s.bi ∧ (packPixel e s).acc = filledByte e s ∧
      ∀ k, Memory.read? (packPixel e s).bmem k = Memory.read? s.bmem k := by
  obtain ⟨t, rfl, hbmem, hbi, hacc, -⟩ := packPixel_cases e s
  simp only [inv.endsByte_iff busy] at hbmem hbi hacc
  split_ifs with ends
  · rw [if_pos ends] at hbmem hbi hacc
    rw [hbmem]
    exact ⟨hbi.trans (inv.trunc_bi_succ busy), hacc, Memory.read?_write_same _ _ (inv.bi_lt_bcap busy),
      fun k hk => Memory.read?_write_other _ _ hk⟩
  · rw [if_neg ends] at hbmem hbi hacc
    rw [hbmem]
    exact ⟨hbi, hacc, fun k => rfl⟩

/-- The cursor's three ways on: to the next column, to the next row, or to the end of the operation. -/
theorem packPixel_cursor :
    if s.c ≠ s.width - 1 then (packPixel e s).r = s.r ∧ (packPixel e s).c = s.c + 1 ∧
      (packPixel e s).status = s.status ∧ (packPixel e s).blen = s.blen
    else if s.r + 1 < s.height then (packPixel e s).r = s.r + 1 ∧ (packPixel e s).c = 0 ∧
      (packPixel e s).status = s.status ∧ (packPixel e s).blen = s.blen
    else (packPixel e s).r = s.r ∧ (packPixel e s).c = s.c ∧ (packPixel e s).status = ⟨false, true, .noError⟩ ∧
      (packPixel e s).blen = (packPixel e s).bi ∧ (packPixel e s).bi = s.height * ((s.width + 7) / 8) := by
  have hbyte := packPixel_byte inv busy e
  obtain ⟨t, rfl, -, -, -, -, -, -, -, -, -, -, -, -, -, hend⟩ := packPixel_cases e s
  have hlast := inv.eq_width_sub_one_iff busy
  have col := (inv.cursor busy).col
  have widths := inv.widths
  obtain ⟨hc, hr', hc', hst, hblen⟩ | ⟨hc, hr, hr', hc', hst, hblen⟩ | ⟨hc, hr, hr', hc', hst, hblen⟩ := hend
  · rw [if_pos (mt hlast.mp hc)]
    have fits : s.c + 1 < 2 ^ s.cfg.dimw := Nat.lt_of_le_of_lt col widths.width
    exact ⟨hr'.trans (trunc_of_lt widths.r), hc'.trans (trunc_of_lt fits), hst, hblen⟩
  · rw [if_neg (not_not_intro (hlast.mpr hc)), if_pos hr]
    exact ⟨hr'.trans (trunc_of_lt (hr.trans widths.height)), hc', hst, hblen⟩
  · rw [if_neg (not_not_intro (hlast.mpr hc)), if_neg (Nat.not_lt.mpr hr)]
    rw [if_pos (.inr (hlast.mpr hc))] at hbyte
    obtain ⟨hbi, -⟩ := hbyte
    rw [hbi, inv.trunc_bi_succ busy] at hblen
    refine ⟨hr', hc', hst, hblen.trans hbi.symm, hbi.trans ?_⟩
    rw [inv.bi_succ_of_lastPixel busy hc hr, State.byteCount, State.rowBytes, ceil8_eq]

end Pixel

/-- Settles O16: the step is `packStep_of_read`; a failed row check is `raise`, and otherwise the byte and the cursor are
`packPixel_byte` and `packPixel_cursor`, and the rest of the frame is `packPixel_cases`. -/
theorem packElementStep : Obligations.PackElementStep := by
  unfold Obligations.PackElementStep
  intro s e d inv pending busy pack read
  rw [step_of_pending_nil pending, blockTurn_pack busy pack, packStep_of_read read, inv.lastCol_eq busy]
  refine ⟨fun (wrong : entryEol e ≠ _) => ?fails, fun (right : entryEol e = _) => ?packs⟩
  case fails =>
    rw [if_pos wrong, raise_pack_eq]
  case packs =>
    rw [if_neg (not_not_intro right)]
    obtain ⟨_, rfl, -, -, -, -, hcfg, hwidth, hheight, hglen, hopl, hgmem, -⟩ := packPixel_cases e s
    have bits (p : Nat) (_ : p < 8) : (filledByte e s).getLsbD p =
        if p = 7 - s.c % 8 then decide (e.setWidth 8 ≠ 0#8) else s.acc.getLsbD p :=
      bin_entrySample e ▸ inv.filledByte_getLsbD busy pack e p
    exact ⟨_, filledByte e s, rfl, bits, packPixel_gi inv busy e, rfl, packPixel_byte inv busy e,
      packPixel_cursor inv busy e, hcfg, hwidth, hheight, hglen, hopl, fun k => by rw [← hgmem]; rfl, rfl, rfl⟩

end Sys2Proof.Machine
end

section
/-! PROOFS. The element step of UNPACK (42_unpacker.md R132, R133): the entry it writes, within GMEM, and the step on the
byte it works on, known, drawn or held. -/

namespace Sys2Proof.Machine

/-! ### The grid index while an operation runs -/

section Running

variable {s : State} (inv : s.Inv) (busy : s.status.busy = true)
include inv busy

/-- The last entry's index is inside GMEM, whose size is that of the largest grid (R9, R136). -/
theorem State.Inv.gi_lt_gcap : s.gi < gcap s.cfg :=
  calc s.gi < s.height * s.width := inv.gi_lt busy
    _ ≤ gcap s.cfg := Nat.mul_le_mul (Nat.le_pred_of_lt inv.widths.height) (Nat.le_pred_of_lt inv.widths.width)

theorem State.Inv.trunc_c_succ : trunc s.cfg.dimw (s.c + 1) = s.c + 1 :=
  trunc_of_lt (Nat.lt_of_le_of_lt (inv.cursor busy).col inv.widths.width)

/-- At the pixel (`H - 1`, `W - 1`) the grid index just advanced is the number of entries of the grid. -/
theorem State.Inv.gi_succ_of_lastPixel (hc : s.c + 1 = s.width) (hr : s.height ≤ s.r + 1) :
    s.gi + 1 = s.width * s.height := by
  obtain ⟨row, -, grid, -⟩ := inv.cursor busy
  have hheight : s.height = s.r + 1 := Nat.le_antisymm hr row
  rw [grid, hheight, Nat.mul_succ, Nat.mul_comm, Nat.add_assoc, hc]

end Running

/-! ### The step on the byte it works on -/

theorem blockTurn_unpack {s : State} (busy : s.status.busy = true) (unpack : s.opl = .unpack) :
    blockTurn s = unpackStep s := by
  rw [blockTurn, if_pos busy, elementStep, unpack]

/-- The pixel part neither reads nor writes the count of draws. -/
theorem unpackPixel_setDraws (cur : Byte) (s : State) (d : Nat) :
    unpackPixel cur { s with draws := d } = (unpackPixel cur s).env s.pending s.replies d :=
  unpackPixel_env s s.pending s.replies d cur

/-- UNPACK's element step on the byte `cur` it works on, with `d` the count of draws after the fetch: known, drawn where it
is unspecified, or held in `acc` inside a byte (R132, R203). -/
theorem unpackStep_of_fetch {s : State} {cur : Byte} {d : Nat}
    (fetch : (lane s.c = 0 ∧ Memory.read? s.bmem s.bi = some cur ∧ d = s.draws) ∨
      (lane s.c = 0 ∧ Memory.read? s.bmem s.bi = none ∧ cur = (Config.freeWord s.draws).setWidth 8 ∧ d = s.draws + 1) ∨
      (lane s.c ≠ 0 ∧ cur = s.acc ∧ d = s.draws)) :
    unpackStep s = (unpackPixel cur s).env s.pending s.replies d := by
  rw [← unpackPixel_setDraws]
  obtain ⟨first, known, rfl⟩ | ⟨first, unspecified, rfl, rfl⟩ | ⟨inside, rfl, rfl⟩ := fetch
  · exact unpackStep_known first known
  · simp only [unpackStep, unpackFetch, if_pos first, memReadByte, unspecified]
    rfl
  · exact unpackStep_held inside

/-! ### The entry written -/

/-- The entry an element step of UNPACK writes: the pixel of the current column, and `eol` at the last one (R132, R133). -/
def unpackedEntry (cur : Byte) (s : State) : Entry := mkEntry s.lastCol (white (cur.getLsbD (bitPos s.c)))

theorem unpackedEntry_eol (cur : Byte) (s : State) : (unpackedEntry cur s).getLsbD 8 = s.lastCol :=
  entryEol_mkEntry _ _

theorem unpackedEntry_sample (cur : Byte) (s : State) :
    (unpackedEntry cur s).setWidth 8 = white (cur.getLsbD (bitPos s.c)) := by
  rw [BitVec.setWidth_eq_extractLsb' (by decide)]
  exact entrySample_mkEntry _ _

/-! ### The parts of the pixel's step, within the ranges -/

section Pixel

variable {s : State} (inv : s.Inv) (busy : s.status.busy = true) (cur : Byte)
include inv busy

theorem unpackPixel_gi : (unpackPixel cur s).gi = s.gi + 1 := by
  obtain ⟨t, rfl, -, -, -, hgi, -⟩ := unpackPixel_cases cur s
  exact hgi.trans (inv.trunc_gi_succ busy)

theorem unpackPixel_bi :
    (unpackPixel cur s).bi = if s.c % 8 = 7 ∨ s.c = s.width - 1 then s.bi + 1 else s.bi := by
  obtain ⟨t, rfl, -, hbi, -⟩ := unpackPixel_cases cur s
  simpa only [inv.endsByte_iff busy, inv.trunc_bi_succ busy] using hbi

/-- The entry is written at `gi`, inside GMEM, and nowhere else. -/
theorem unpackPixel_gmem (k : Nat) : Memory.read? (unpackPixel cur s).gmem k =
    if k = s.gi then some (unpackedEntry cur s) else Memory.read? s.gmem k := by
  obtain ⟨t, rfl, hgmem, -⟩ := unpackPixel_cases cur s
  rw [hgmem]
  exact Memory.read?_write (inv.gi_lt_gcap busy) s.gmem _ k

/-- The cursor's three ways on: to the next column, to the next row, or to the end of the operation. -/
theorem unpackPixel_cursor :
    if s.c ≠ s.width - 1 then (unpackPixel cur s).r = s.r ∧ (unpackPixel cur s).c = s.c + 1 ∧
      (unpackPixel cur s).status = s.status ∧ (unpackPixel cur s).glen = s.glen
    else if s.r + 1 < s.height then (unpackPixel cur s).r = s.r + 1 ∧ (unpackPixel cur s).c = 0 ∧
      (unpackPixel cur s).status = s.status ∧ (unpackPixel cur s).glen = s.glen
    else (unpackPixel cur s).r = s.r ∧ (unpackPixel cur s).c = s.c ∧
      (unpackPixel cur s).status = ⟨false, true, .noError⟩ ∧ (unpackPixel cur s).glen = (unpackPixel cur s).gi ∧
      (unpackPixel cur s).gi = s.width * s.height := by
  have hgi := unpackPixel_gi inv busy cur
  obtain ⟨t, rfl, -, -, -, -, -, -, -, -, -, -, -, -, -, hend⟩ := unpackPixel_cases cur s
  simp only [ne_eq, inv.eq_width_sub_one_iff busy]
  obtain ⟨hc, hr', hc', hst, hglen⟩ | ⟨hc, hr, hr', hc', hst, hglen⟩ | ⟨hc, hr, hr', hc', hst, hglen⟩ := hend
  · rw [if_pos hc]
    exact ⟨hr'.trans (trunc_of_lt inv.widths.r), hc'.trans (inv.trunc_c_succ busy), hst, hglen⟩
  · rw [if_neg (not_not_intro hc), if_pos hr]
    exact ⟨hr'.trans (trunc_of_lt (hr.trans inv.widths.height)), hc', hst, hglen⟩
  · rw [if_neg (not_not_intro hc), if_neg (Nat.not_lt.mpr hr)]
    rw [hgi, inv.trunc_gi_succ busy] at hglen
    exact ⟨hr', hc', hst, hglen.trans hgi.symm, hgi.trans (inv.gi_succ_of_lastPixel busy hc hr)⟩

end Pixel

/-- Settles O17: the step is `unpackStep_of_fetch`; the entry and the cursor are `unpackPixel_gmem` and
`unpackPixel_cursor`, and the rest of the frame is `unpackPixel_cases`. -/
theorem unpackElementStep : Obligations.UnpackElementStep := by
  unfold Obligations.UnpackElementStep
  intro s cur d inv pending busy unpack fetch
  rw [step_of_pending_nil pending, blockTurn_unpack busy unpack, unpackStep_of_fetch fetch, ← inv.lastCol_eq busy]
  obtain ⟨_, rfl, -, -, hacc, -, hcfg, hwidth, hheight, hblen, hopl, hbmem, -⟩ := unpackPixel_cases cur s
  have hgmem := unpackPixel_gmem inv busy cur
  exact ⟨_, unpackedEntry cur s, rfl, unpackedEntry_eol cur s, unpackedEntry_sample cur s,
    (hgmem s.gi).trans (if_pos rfl), fun k hk => (hgmem k).trans (if_neg hk), hacc, unpackPixel_gi inv busy cur, rfl,
    unpackPixel_bi inv busy cur, unpackPixel_cursor inv busy cur, hcfg, hwidth, hheight, hblen, hopl,
    fun k => by rw [← hbmem]; rfl, rfl, rfl⟩

end Sys2Proof.Machine
end

section
/-! PROOFS. The two transforms as pure functions (43_codec_laws.md R150, R151): the byte of a lane function as a number and
bit by bit, the packed sequence byte by byte, and the unpacked grid sample by sample. -/

namespace Sys2Proof.Machine

/-- `bin` in the form the statements about pixels use (R100). -/
theorem bin_eq_decide (p : Byte) : bin p = decide (p ≠ 0#8) :=
  Bool.eq_iff_iff.mpr ((bin_eq_true_iff p).trans decide_eq_true_iff.symm)

/-! ### A byte from its lanes -/

theorem toNat_shiftedBit (b : Bool) {k : Nat} (hk : k < 8) : (shiftedBit b k).toNat = if b then 2 ^ k else 0 := by
  have hpow : 2 ^ k < 256 := Nat.pow_lt_pow_right (by omega) hk
  cases b
  · simp [shiftedBit]
  · simp [shiftedBit, Nat.shiftLeft_eq, hpow]

/-- The number whose bit `7 - j` is `f j`, as the sum over the lanes. -/
theorem sum_lanes_eq_ofBits (f : Nat → Bool) :
    ((List.range 8).map fun j => if f j then 2 ^ (7 - j) else 0).sum = Nat.ofBits fun i : Fin 8 => f (7 - i) := by
  have hlane : ∀ (b : Bool) (n : Nat), (if b then n else 0) = n * b.toNat := by rintro (_ | _) n <;> simp
  simp [hlane, List.range_succ, Nat.ofBits_succ, Fin.succ]
  omega

/-- The sum over the lanes does not overflow a byte (R87). -/
theorem toNat_laneByte (f : Nat → Bool) :
    (laneByte f).toNat = ((List.range 8).map fun j => if f j then 2 ^ (7 - j) else 0).sum := by
  have hlt := Nat.ofBits_lt_two_pow fun i : Fin 8 => f (7 - i)
  rw [← sum_lanes_eq_ofBits] at hlt
  rw [← Nat.mod_eq_of_lt hlt]
  simp [laneByte, List.range_succ, toNat_shiftedBit]

theorem getLsbD_laneByte (f : Nat → Bool) {p : Nat} (hp : p < 8) : (laneByte f).getLsbD p = f (7 - p) := by
  rw [BitVec.getLsbD, toNat_laneByte, sum_lanes_eq_ofBits, Nat.testBit_ofBits_lt _ _ hp]

/-! ### Packing -/

theorem rectangular_iff {g : List (List Byte)} {w h : Nat} :
    rectangular g w h = true ↔ g.length = h ∧ ∀ row ∈ g, row.length = w := by
  simp [rectangular]

theorem pack_eq_ok {g : List (List Byte)} {w h : Nat} (hw : 0 < w) (hh : 0 < h) (hg : rectangular g w h = true) :
    Codec.pack g w h = .ok (g.flatMap (packRow w)) := by
  have hwh : ¬(w = 0 ∨ h = 0) := by omega
  rw [Codec.pack, if_neg hwh, if_pos hg]

@[simp] theorem length_packRow (w : Nat) (row : List Byte) : (packRow w row).length = ceil8 w := by
  simp [packRow]

theorem packRow_getD (row : List Byte) {w k : Nat} (hk : k < ceil8 w) :
    (packRow w row).getD k 0#8 = packByte w (fun c => row.getD c 0#8) k := by
  simp [packRow, hk]

theorem length_flatMap_packRow (g : List (List Byte)) (w : Nat) :
    (g.flatMap (packRow w)).length = g.length * ceil8 w := by
  simp [List.length_flatMap]

/-- Byte `r * RB + k` of the packed sequence is byte `k` of the row span of row `r`. -/
theorem flatMap_packRow_getD {w k : Nat} (hk : k < ceil8 w) {g : List (List Byte)} {r : Nat} (hr : r < g.length) :
    (g.flatMap (packRow w)).getD (r * ceil8 w + k) 0#8 = packByte w (fun c => (g.getD r []).getD c 0#8) k := by
  induction g generalizing r with
  | nil => simp at hr
  | cons row g ih =>
    rw [List.flatMap_cons]
    cases r with
    | zero =>
      rw [Nat.zero_mul, Nat.zero_add, List.getD_append _ _ _ _ (by rwa [length_packRow]), packRow_getD row hk]
      rfl
    | succ r =>
      have hidx : (r + 1) * ceil8 w + k - ceil8 w = r * ceil8 w + k := by rw [Nat.succ_mul]; omega
      rw [List.getD_append_right _ _ _ _ (by rw [length_packRow, Nat.succ_mul]; omega), length_packRow, hidx,
        ih (Nat.lt_of_succ_lt_succ hr)]
      rfl

theorem toNat_packByte (w : Nat) (row : Nat → Byte) (k : Nat) :
    (packByte w row k).toNat =
      ((List.range 8).map fun j => if 8 * k + j < w ∧ row (8 * k + j) ≠ 0#8 then 2 ^ (7 - j) else 0).sum := by
  rw [packByte, toNat_laneByte]
  simp only [Bool.and_eq_true, decide_eq_true_eq, bin_eq_true_iff]

/-- Column `c`'s bit in its byte, and 0 where there is no column `c` (R150). -/
theorem packByte_getLsbD_bitPos (w : Nat) (row : Nat → Byte) (c : Nat) :
    (packByte w row (c / 8)).getLsbD (bitPos c) = (decide (c < w) && bin (row c)) := by
  have hcol : 8 * (c / 8) + (7 - bitPos c) = c := by unfold bitPos lane; omega
  rw [packByte, getLsbD_laneByte _ (bitPos_lt c), hcol]

/-- Settles O54: every byte is a `packByte` (`flatMap_packRow_getD`), whose number is `toNat_packByte` and whose bits are
`packByte_getLsbD_bitPos`. -/
theorem packBitsAreThePixels : Obligations.PackBitsAreThePixels := by
  unfold Obligations.PackBitsAreThePixels
  intro g w h hw hh hg
  obtain ⟨rfl, -⟩ := rectangular_iff.mp hg
  simp only [← ceil8_eq]
  refine ⟨_, pack_eq_ok hw hh hg, length_flatMap_packRow g w, fun r k hr hk => ?_, fun r c hr hc => ?_⟩
  · rw [flatMap_packRow_getD hk hr, toNat_packByte]
  · rw [flatMap_packRow_getD (Nat.div_lt_of_lt_mul hc) hr]
    exact (packByte_getLsbD_bitPos w _ c).trans (congrArg _ (bin_eq_decide _))

/-! ### Unpacking -/

theorem unpack_eq_invalidInput {w h : Nat} (hwh : w = 0 ∨ h = 0) (b : List Byte) :
    Codec.unpack b w h = .error .invalidInput := if_pos hwh

section Unpack

variable {b : List Byte} {w h : Nat} (hw : 0 < w) (hh : 0 < h)
include hw hh

theorem unpack_eq_lengthMismatch (hb : b.length ≠ h * ceil8 w) : Codec.unpack b w h = .error .lengthMismatch := by
  have hwh : ¬(w = 0 ∨ h = 0) := by omega
  rw [Codec.unpack, if_neg hwh, if_pos hb]

theorem unpack_eq_ok (hb : b.length = h * ceil8 w) :
    Codec.unpack b w h = .ok ((List.range h).map fun r => (List.range w).map fun c => unpackedSample b w r c) := by
  have hwh : ¬(w = 0 ∨ h = 0) := by omega
  rw [Codec.unpack, if_neg hwh, if_neg (not_not_intro hb)]

end Unpack

theorem rectangular_map_range (f : Nat → Nat → Byte) (w h : Nat) :
    rectangular ((List.range h).map fun r => (List.range w).map (f r)) w h = true := by
  simp [rectangular_iff]

theorem map_range_getD_getD (f : Nat → Nat → Byte) {w h r c : Nat} (hr : r < h) (hc : c < w) :
    (((List.range h).map fun r => (List.range w).map (f r)).getD r []).getD c 0#8 = f r c := by
  simp [hr, hc]

/-- Settles O55: the two errors by name, and the grid sample by sample (`map_range_getD_getD`), each sample `white` of its
bit. -/
theorem unpackSamplesAreTheBits : Obligations.UnpackSamplesAreTheBits := by
  unfold Obligations.UnpackSamplesAreTheBits
  intro b w h
  simp only [← ceil8_eq]
  exact ⟨fun hwh => unpack_eq_invalidInput hwh b, unpack_eq_lengthMismatch, fun hw hh hb =>
    ⟨_, unpack_eq_ok hw hh hb, rectangular_map_range (unpackedSample b w) w h,
      fun r c hr hc => map_range_getD_getD (unpackedSample b w) hr hc⟩⟩

end Sys2Proof.Machine
end

section
/-! PROOFS. The reset event (70_reset_and_hazards.md R200): the registers it clears, and the memory it keeps or forgets in
each of the three situations it can meet. -/

namespace Sys2Proof.Machine

variable {s : State}

@[simp] theorem resetRegisters_gmem (s : State) : (resetRegisters s).gmem = s.gmem := rfl

@[simp] theorem resetRegisters_bmem (s : State) : (resetRegisters s).bmem = s.bmem := rfl

theorem step_reset (s : State) (m : List Move) :
    step { s with pending := .reset :: m } = .next (resetEvent (s.setPending m)) := rfl

theorem resetEvent_idle (idle : s.status.busy = false) : resetEvent s = resetRegisters s := by
  simp [resetEvent, idle]

theorem resetEvent_packing (busy : s.status.busy = true) (pack : s.opl = .pack) :
    resetEvent s = resetRegisters (s.setBmem []) := by
  simp [resetEvent, busy, pack, forgetOutput]

theorem resetEvent_unpacking (busy : s.status.busy = true) (unpack : s.opl = .unpack) :
    resetEvent s = resetRegisters (s.setGmem []) := by
  simp [resetEvent, busy, unpack, forgetOutput]

/-- Settles O50: the registers are cleared whatever was running, and the memories follow from the equation of
`resetEvent` for the situation it meets. -/
theorem resetEvent_spec : Obligations.ResetEvent := by
  unfold Obligations.ResetEvent
  intro s m
  refine ⟨_, step_reset s m, rfl, rfl, rfl, rfl, rfl, rfl, rfl, rfl, rfl, rfl, rfl,
    fun idle => ?idle, fun busy pack => ?packing, fun busy unpack => ?unpacking⟩
  case idle => simp [resetEvent_idle (s := s.setPending m) idle]
  case packing => simp [resetEvent_packing (s := s.setPending m) busy pack]
  case unpacking => simp [resetEvent_unpacking (s := s.setPending m) busy unpack]

end Sys2Proof.Machine
end

section
/-! PROOFS. The command word (30_encoding.md R80, R82, R83): a command is its OP and the bits 31:2, decoding and encoding
are inverse to each other, and what a command does depends on its OP alone. -/

namespace Sys2Proof

/-- `OP` of a command's row of the opcode table (R82, R83). -/
def Instr.op : Instr → BitVec 2
  | .pack _ => 0b01#2
  | .unpack _ => 0b10#2
  | .rsv0 _ => 0b00#2
  | .rsv3 _ => 0b11#2

theorem Instr.exists_pack_iff (i : Instr) : (∃ g, i = .pack g) ↔ i.op = 0b01#2 := by cases i <;> simp [Instr.op]

theorem Instr.exists_unpack_iff (i : Instr) : (∃ g, i = .unpack g) ↔ i.op = 0b10#2 := by cases i <;> simp [Instr.op]

theorem Instr.exists_rsv0_iff (i : Instr) : (∃ g, i = .rsv0 g) ↔ i.op = 0b00#2 := by cases i <;> simp [Instr.op]

theorem Instr.exists_rsv3_iff (i : Instr) : (∃ g, i = .rsv3 g) ↔ i.op = 0b11#2 := by cases i <;> simp [Instr.op]

/-- A command is its OP and what it keeps of bits 31:2. -/
theorem Instr.eq_of_op_of_ignored {i j : Instr} (hop : i.op = j.op) (hign : i.ignored = j.ignored) : i = j := by
  cases i with
  | pack g => obtain ⟨g', rfl⟩ := j.exists_pack_iff.mpr hop.symm; exact congrArg Instr.pack hign
  | unpack g => obtain ⟨g', rfl⟩ := j.exists_unpack_iff.mpr hop.symm; exact congrArg Instr.unpack hign
  | rsv0 g => obtain ⟨g', rfl⟩ := j.exists_rsv0_iff.mpr hop.symm; exact congrArg Instr.rsv0 hign
  | rsv3 g => obtain ⟨g', rfl⟩ := j.exists_rsv3_iff.mpr hop.symm; exact congrArg Instr.rsv3 hign

theorem encode_eq (i : Instr) : encode i = i.ignored ++ i.op := by cases i <;> rfl

theorem decode_op_and_ignored (w : Word) : (decode w).op = opField w ∧ (decode w).ignored = ignField w := by
  obtain h | h | h | h := opField_cases (opField w) <;> simp [decode, h, Instr.op, Instr.ignored]

@[simp] theorem decode_op (w : Word) : (decode w).op = opField w := (decode_op_and_ignored w).1

@[simp] theorem decode_ignored (w : Word) : (decode w).ignored = ignField w := (decode_op_and_ignored w).2

/-- Settles O1: both fields of the encoded word are the command's. -/
theorem decodeInvertsEncode : Obligations.DecodeInvertsEncode := by
  unfold Obligations.DecodeInvertsEncode
  intro i _
  apply Instr.eq_of_op_of_ignored
  · rw [decode_op, encode_eq, opField_append]
  · rw [decode_ignored, encode_eq, ignField_append]

/-- Settles O2: a word is its two fields, which the decoded command keeps. -/
theorem encodeInvertsDecode : Obligations.EncodeInvertsDecode := by
  unfold Obligations.EncodeInvertsDecode
  intro w
  rw [encode_eq, decode_op, decode_ignored, ignField_append_opField]

/-! ### Selection by the mask of the opcode table -/

theorem and_mask_eq_iff {w : Word} {k : BitVec 2} : w &&& 0x3#32 = k.setWidth 32 ↔ opField w = k :=
  ⟨opField_eq_of_and_mask, fun h => h ▸ and_mask_eq_opField w⟩

/-- Settles O3: a command of each kind is one with that kind's OP, and the mask keeps exactly OP. -/
theorem maskAndMatchSelectTheCommand : Obligations.MaskAndMatchSelectTheCommand := by
  unfold Obligations.MaskAndMatchSelectTheCommand
  intro w
  rw [Instr.exists_pack_iff, Instr.exists_unpack_iff, Instr.exists_rsv0_iff, Instr.exists_rsv3_iff, decode_op]
  exact ⟨and_mask_eq_iff.symm, and_mask_eq_iff.symm, and_mask_eq_iff.symm, and_mask_eq_iff.symm⟩

theorem Machine.exec_eq_of_op {i j : Instr} (h : i.op = j.op) (s : Machine.State) :
    Machine.exec i s = Machine.exec j s := by
  cases i with
  | pack g => obtain ⟨g', rfl⟩ := j.exists_pack_iff.mpr h.symm; rfl
  | unpack g => obtain ⟨g', rfl⟩ := j.exists_unpack_iff.mpr h.symm; rfl
  | rsv0 g => obtain ⟨g', rfl⟩ := j.exists_rsv0_iff.mpr h.symm; rfl
  | rsv3 g => obtain ⟨g', rfl⟩ := j.exists_rsv3_iff.mpr h.symm; rfl

/-- Settles O4: equal masked bits are equal OPs, and OP alone selects the meaning. -/
theorem ignoredBitsChangeNothing : Obligations.IgnoredBitsChangeNothing := by
  unfold Obligations.IgnoredBitsChangeNothing
  intro w w' s h
  apply Machine.exec_eq_of_op
  rw [decode_op, decode_op]
  exact and_mask_eq_iff.mp (h.trans (and_mask_eq_opField w'))

/-- Settles O5. -/
theorem commandWordsDecode : Obligations.CommandWordsDecode := by
  unfold Obligations.CommandWordsDecode
  decide

end Sys2Proof
end

section
/-! PROOFS. The acceptance of a command (30_encoding.md R81): a command comes as the next move, its start check decides
between the error and the start, and either leaves the rest of the state alone. -/

namespace Sys2Proof.Machine

/-! ### A command as the next move -/

/-- Settles O6: a write of index 0 of REG is the command's meaning. -/
theorem stepRunsTheDecodedCommand : Obligations.StepRunsTheDecodedCommand := by
  unfold Obligations.StepRunsTheDecodedCommand
  intro s w ms h
  rw [step, nextMove, h]
  rfl

/-- Settles O7: the word placed is the one `decodeTableWord` reads, and the step takes it off the schedule again. -/
theorem placedCommandRunsNext : Obligations.PlacedCommandRunsNext := by
  unfold Obligations.PlacedCommandRunsNext
  intro s nbits w i h
  rw [decodeTableWord] at h
  split at h
  · exact Option.some.inj h ▸ stepRunsTheDecodedCommand (s.withFetchWord nbits w) _ s.pending rfl
  · cases h

/-! ### The start check of either operation -/

/-- The start check of an operation (R111, R131). -/
def startCheck : Operation → State → Option ErrCode
  | .pack => packStartCheck
  | .unpack => unpackStartCheck

theorem startCheck_setStatus (o : Operation) (st : Status) (s : State) :
    startCheck o (s.setStatus st) = startCheck o s := by
  cases o <;> rfl

/-- The codes a start check answers (R178). -/
theorem startCheck_some {o : Operation} {s : State} {e : ErrCode} (h : startCheck o s = some e) :
    e = .invalidInput ∨ e = .lengthMismatch := by
  cases o with
  | pack => exact .inl (packStartCheck_some h)
  | unpack => exact unpackStartCheck_some h

theorem startCheck_none_dims {o : Operation} {s : State} (h : startCheck o s = none) : 0 < s.width ∧ 0 < s.height := by
  cases o with
  | pack => obtain ⟨hw, hh, -⟩ := packStartCheck_none.mp h; exact ⟨hw, hh⟩
  | unpack => obtain ⟨hw, hh, -⟩ := unpackStartCheck_none.mp h; exact ⟨hw, hh⟩

/-- The state in which operation `o` has just started (R81 (4)). -/
def State.started (o : Operation) (s : State) : State :=
  { s with status := ⟨true, false, .noError⟩, opl := o, r := 0, c := 0, gi := 0, bi := 0, acc := 0#8 }

theorem begin_cleared (o : Operation) (s : State) : begin o (s.setStatus s.status.cleared) = s.started o := by
  rw [begin_eq]
  rfl

theorem raise_setStatus (o : Operation) (e : ErrCode) (st : Status) (s : State) :
    raise o e (s.setStatus st) = raise o e s := by
  cases o <;> rfl

/-- What a command for operation `o` can do: nothing while BUSY, the error of its start check, or the start. -/
theorem command_cases (o : Operation) (s : State) :
    (s.status.busy = true ∧ accept o (startCheck o) s = s) ∨
    (s.status.busy = false ∧ ∃ e, startCheck o s = some e ∧ accept o (startCheck o) s = raise o e s) ∨
    (s.status.busy = false ∧ startCheck o s = none ∧ accept o (startCheck o) s = s.started o) := by
  obtain busy | ⟨e, idle, hc, h⟩ | ⟨idle, hc, h⟩ := accept_cases o (startCheck o) s
  · exact .inl busy
  · rw [startCheck_setStatus] at hc
    exact .inr (.inl ⟨idle, e, hc, h.trans (raise_setStatus ..)⟩)
  · rw [startCheck_setStatus] at hc
    exact .inr (.inr ⟨idle, hc, h.trans (begin_cleared o s)⟩)

theorem command_error (o : Operation) {s : State} {e : ErrCode} (idle : s.status.busy = false)
    (hc : startCheck o s = some e) : accept o (startCheck o) s = raise o e s := by
  rw [← startCheck_setStatus o s.status.cleared] at hc
  exact (accept_error idle hc).trans (raise_setStatus ..)

theorem command_start (o : Operation) {s : State} (idle : s.status.busy = false) (hc : startCheck o s = none) :
    accept o (startCheck o) s = s.started o := by
  rw [← startCheck_setStatus o s.status.cleared] at hc
  exact (accept_start idle hc).trans (begin_cleared o s)

/-! ### The two commands -/

theorem exec_pack (g : BitVec 30) (s : State) : exec (.pack g) s = .next (accept .pack (startCheck .pack) s) := rfl

theorem exec_unpack (g : BitVec 30) (s : State) :
    exec (.unpack g) s = .next (accept .unpack (startCheck .unpack) s) := rfl

theorem byteCount_eq (s : State) : s.byteCount = s.height * ((s.width + 7) / 8) := by
  rw [State.byteCount, State.rowBytes, ceil8_eq]

/-- Settles O9: the branches of the start check, and the completion or the start each leads to. -/
theorem packStartCheckInOrder : Obligations.PackStartCheckInOrder := by
  unfold Obligations.PackStartCheckInOrder
  intro s g idle
  rw [exec_pack]
  congr 1
  split_ifs with dims count
  · rw [command_error .pack idle (e := .invalidInput) (if_pos dims), raise_pack_eq]
  · rw [command_error .pack idle (e := .invalidInput) ((if_neg dims).trans (if_pos count)), raise_pack_eq]
  · exact command_start .pack idle ((if_neg dims).trans (if_neg count))

/-- Settles O10: the branches of the start check, and the completion or the start each leads to. -/
theorem unpackStartCheckInOrder : Obligations.UnpackStartCheckInOrder := by
  unfold Obligations.UnpackStartCheckInOrder
  intro s g idle
  rw [exec_unpack, ← byteCount_eq]
  congr 1
  split_ifs with dims count
  · rw [command_error .unpack idle (e := .invalidInput) (if_pos dims), raise_unpack_eq]
  · rw [command_error .unpack idle (e := .lengthMismatch) ((if_neg dims).trans (if_pos count)), raise_unpack_eq]
  · exact command_start .unpack idle ((if_neg dims).trans (if_neg count))

/-- Settles O11: the start check passes. -/
theorem packStarts : Obligations.PackStarts := by
  unfold Obligations.PackStarts
  intro s g idle hw hh count
  rw [exec_pack, command_start .pack idle (packStartCheck_none.mpr ⟨hw, hh, count⟩)]
  rfl

/-- Settles O12: the start check passes. -/
theorem unpackStarts : Obligations.UnpackStarts := by
  unfold Obligations.UnpackStarts
  intro s g idle hw hh count
  rw [exec_unpack, command_start .unpack idle (unpackStartCheck_none.mpr ⟨hw, hh, count.trans (byteCount_eq s).symm⟩)]
  rfl

/-- Settles O13. -/
theorem commandWhileBusyIsIgnored : Obligations.CommandWhileBusyIsIgnored := by
  unfold Obligations.CommandWhileBusyIsIgnored
  exact fun i s busy => exec_busy busy i

/-! ### The frame of a command -/

/-- Settles O14: nothing while BUSY, the completion with an error, or the start; each read field by field. -/
theorem commandFrame : Obligations.CommandFrame := by
  unfold Obligations.CommandFrame
  intro i s t h
  cases i with
  | pack g =>
    obtain rfl := Host.Outcome.next.inj ((exec_pack g s).symm.trans h)
    obtain ⟨-, h⟩ | ⟨-, e, -, h⟩ | ⟨-, -, h⟩ := command_cases .pack s <;> rw [h]
    · simp
    · simp [raise_pack_eq]
    · simp [State.started]
  | unpack g =>
    obtain rfl := Host.Outcome.next.inj ((exec_unpack g s).symm.trans h)
    obtain ⟨-, h⟩ | ⟨-, e, -, h⟩ | ⟨-, -, h⟩ := command_cases .unpack s <;> rw [h]
    · simp
    · simp [raise_unpack_eq]
    · simp [State.started]
  | rsv0 g => obtain rfl := Host.Outcome.next.inj ((exec_rsv0 g s).symm.trans h); simp
  | rsv3 g => obtain rfl := Host.Outcome.next.inj ((exec_rsv3 g s).symm.trans h); simp

/-! ### What a start does not look at -/

@[simp] theorem raise_status (o : Operation) (e : ErrCode) (s : State) : (raise o e s).status = ⟨false, true, e⟩ := rfl

/-- A command that makes an idle block BUSY has passed its start check. -/
theorem command_started {o : Operation} {s : State} (idle : s.status.busy = false)
    (busy : (accept o (startCheck o) s).status.busy = true) : startCheck o s = none := by
  obtain ⟨h, -⟩ | ⟨-, e, -, h⟩ | ⟨-, hc, -⟩ := command_cases o s
  · rw [idle] at h; cases h
  · rw [h, raise_status] at busy; cases busy
  · exact hc

/-- Two idle states with the same start check and the same started state are one state to a command that starts. -/
theorem command_start_congr {o : Operation} {s s' : State} (idle : s.status.busy = false)
    (idle' : s'.status.busy = false) (busy : (accept o (startCheck o) s).status.busy = true)
    (check : startCheck o s' = startCheck o s) (start : s'.started o = s.started o) :
    accept o (startCheck o) s' = accept o (startCheck o) s := by
  have hc := command_started idle busy
  rw [command_start o idle hc, command_start o idle' (check.trans hc), start]

/-- Settles O15: the start check reads neither the hidden registers nor STATUS, and the started state overwrites both. -/
theorem nothingLeftBehindReachesAnOperation : Obligations.NothingLeftBehindReachesAnOperation := by
  unfold Obligations.NothingLeftBehindReachesAnOperation
  intro s t i o r c gi bi acc st idle idle' h busy
  cases i with
  | pack g =>
    obtain rfl := Host.Outcome.next.inj ((exec_pack g s).symm.trans h)
    exact congrArg Host.Outcome.next (command_start_congr idle idle' busy rfl rfl)
  | unpack g =>
    obtain rfl := Host.Outcome.next.inj ((exec_unpack g s).symm.trans h)
    exact congrArg Host.Outcome.next (command_start_congr idle idle' busy rfl rfl)
  | rsv0 g | rsv3 g =>
    obtain rfl := Host.Outcome.next.inj h
    rw [idle] at busy
    cases busy

end Sys2Proof.Machine
end

section
/-! PROOFS. What every step keeps of STATUS, of the registers' widths and of the memories' form (10_state.md R24, R29,
20_memory.md R50), from what one step can do and what it does to the registers. -/

namespace Sys2Proof.Machine

/-! ### What a step does, and the move it takes -/

/-- The masked command word of an operation (R82). -/
def commandMatch : Operation → Word
  | .pack => 0x1#32
  | .unpack => 0x2#32

/-- What the next move of `s` does to `q`, the state with that move taken off the schedule, where it is not quiet: a host
write while idle, a command while idle, which fails its start check or starts, an element step, reset, power-up. -/
inductive Event (s q : State) : State → Prop
  | register (idle : q.status.busy = false) (n : OperandReg) (v : Word) (next : s.NextWrites .reg (regIndex n) v) :
      Event s q (q.setX n v.toNat)
  | grid (idle : q.status.busy = false) (i : Nat) (v : Word) (next : s.NextWrites .gmem i v) :
      Event s q (memWriteGrid q i (v.setWidth 9))
  | byte (idle : q.status.busy = false) (i : Nat) (v : Word) (next : s.NextWrites .bmem i v) :
      Event s q (memWriteByte q i (v.setWidth 8))
  | refuse (idle : q.status.busy = false) (o : Operation) (v : Word) (op : v &&& 0x3#32 = commandMatch o)
      (next : s.NextWrites .reg 0 v) (e : ErrCode) (check : startCheck o q = some e) : Event s q (raise o e q)
  | start (idle : q.status.busy = false) (o : Operation) (v : Word) (op : v &&& 0x3#32 = commandMatch o)
      (next : s.NextWrites .reg 0 v) (check : startCheck o q = none) : Event s q (q.started o)
  | element (next : s.NextIsElementStep) : Event s q (elementStep q)
  | reset (ms : List Move) (next : s.pending = .reset :: ms) : Event s q (resetEvent q)
  | powerUp (ms : List Move) (next : s.pending = .powerUp :: ms) : Event s q (powerUpEvent q)

theorem accept_event {s q : State} (o : Operation) {v : Word} (op : v &&& 0x3#32 = commandMatch o)
    (next : s.NextWrites .reg 0 v) :
    accept o (startCheck o) q = q ∨ Event s q (accept o (startCheck o) q) := by
  obtain ⟨-, h⟩ | ⟨idle, e, check, h⟩ | ⟨idle, check, h⟩ := command_cases o q
  · exact .inl h
  · exact .inr (h ▸ .refuse idle o v op next e check)
  · exact .inr (h ▸ .start idle o v op next check)

theorem command_event {s q t : State} {v : Word} (next : s.NextWrites .reg 0 v) (h : exec (decode v) q = .next t) :
    t = q ∨ Event s q t := by
  obtain ⟨hpack, hunpack, -⟩ := maskAndMatchSelectTheCommand v
  cases hi : decode v with
  | pack g =>
    obtain rfl := Host.Outcome.next.inj ((congrArg (exec · q) hi).symm.trans h)
    exact accept_event .pack (hpack.mp ⟨g, hi⟩) next
  | unpack g =>
    obtain rfl := Host.Outcome.next.inj ((congrArg (exec · q) hi).symm.trans h)
    exact accept_event .unpack (hunpack.mp ⟨g, hi⟩) next
  | rsv0 g | rsv3 g => exact .inl (Host.Outcome.next.inj ((congrArg (exec · q) hi).symm.trans h)).symm

theorem hostWrite_event {s q t : State} {sp : Space} {i : Nat} {v : Word} (next : s.NextWrites sp i v)
    (h : hostWrite sp i v q = .next t) : t = q ∨ Event s q t := by
  cases sp with
  | reg =>
    match i with
    | 0 => exact command_event next h
    | 1 | _ + 6 => exact .inl (Host.Outcome.next.inj h).symm
    | 2 => exact busyGuard_cases h .inl fun idle ht => .inr (ht ▸ .register idle .width v next)
    | 3 => exact busyGuard_cases h .inl fun idle ht => .inr (ht ▸ .register idle .height v next)
    | 4 => exact busyGuard_cases h .inl fun idle ht => .inr (ht ▸ .register idle .glen v next)
    | 5 => exact busyGuard_cases h .inl fun idle ht => .inr (ht ▸ .register idle .blen v next)
  | gmem => exact busyGuard_cases h .inl fun idle ht => .inr (ht ▸ .grid idle i v next)
  | bmem => exact busyGuard_cases h .inl fun idle ht => .inr (ht ▸ .byte idle i v next)

theorem blockTurn_idle {s : State} (idle : s.status.busy = false) : blockTurn s = s := by
  simp [blockTurn, idle]

theorem blockTurn_busy {s : State} (busy : s.status.busy = true) : blockTurn s = elementStep s := if_pos busy

theorem blockTurn_event {s q : State} (hq : Quiet s q) (next : s.pending = [] ∨ ∃ ms, s.pending = .block :: ms) :
    blockTurn q = q ∨ Event s q (blockTurn q) := by
  cases busy : q.status.busy with
  | false => exact .inl (blockTurn_idle busy)
  | true => exact .inr (blockTurn_busy busy ▸ .element ⟨hq.status ▸ busy, next⟩)

theorem perform_event {s t : State} {m : Move} {ms : List Move} (hs : s.pending = m :: ms)
    (h : perform m (s.setPending ms) = .next t) : Quiet (s.setPending ms) t ∨ Event s (s.setPending ms) t := by
  have quiet {P : Prop} : t = s.setPending ms ∨ P → Quiet (s.setPending ms) t ∨ P := Or.imp_left fun e => e ▸ rfl
  cases m with
  | hostWrite sp i v => exact quiet (hostWrite_event ⟨_, ms, hs, .inl rfl⟩ h)
  | hostRead sp i => exact .inl (Host.Outcome.next.inj h ▸ quiet_hostRead sp i _)
  | flat a =>
    obtain ⟨kind, addr, bits, v⟩ := a
    simp only [perform, flatAccess] at h
    split at h; · cases h
    next whole =>
    split at h; · cases h
    split at h; · cases h
    next sp i resolved =>
    obtain rfl := not_not.mp whole
    split at h
    · exact .inl (Host.Outcome.next.inj h ▸ quiet_hostRead sp i _)
    · exact quiet (hostWrite_event ⟨_, ms, hs, .inr ⟨addr, resolved, rfl⟩⟩ h)
  | block =>
    obtain rfl := Host.Outcome.next.inj h
    exact quiet (blockTurn_event (Quiet.of_pending s ms) (.inr ⟨ms, hs⟩))
  | reset => exact .inr (Host.Outcome.next.inj h ▸ .reset ms hs)
  | powerUp => exact .inr (Host.Outcome.next.inj h ▸ .powerUp ms hs)

theorem Quiet.refl (s : State) : Quiet s s := rfl

/-- What one step can do, with the move it takes: nothing but take the move off the schedule and answer or count a draw,
or one event. -/
theorem step_event {s t : State} (h : step s = .next t) : Quiet s t ∨ ∃ q, Quiet s q ∧ Event s q t := by
  cases hs : s.pending with
  | nil =>
    obtain rfl := Host.Outcome.next.inj ((step_of_pending_nil hs).symm.trans h)
    exact (blockTurn_event (.refl s) (.inl hs)).imp (fun (e : blockTurn s = s) => e.symm ▸ .refl s) fun e => ⟨s, .refl s, e⟩
  | cons m ms =>
    have hq := Quiet.of_pending s ms
    rw [step, nextMove, hs] at h
    exact (perform_event hs h).imp hq.trans fun e => ⟨_, hq, e⟩

/-- What a quiet move and every event keep, every step keeps. -/
theorem step_keeps {P : State → Prop} (quiet : ∀ s t, Quiet s t → P s → P t)
    (event : ∀ s q t, Quiet s q → Event s q t → P q → P t) {s t : State} (h : step s = .next t) (hs : P s) : P t := by
  obtain hq | ⟨q, hq, he⟩ := step_event h
  · exact quiet s t hq hs
  · exact event s q t hq he (quiet s q hq hs)

/-! ### The registers after a pixel -/

/-- The index an operation counts its output with (R175). -/
def State.outIndex (s : State) : Operation → Nat
  | .pack => s.bi
  | .unpack => s.gi

/-- What the pixel part of the element step of `o` does to the registers: the indices advance, and the cursor moves to the
next column, to the next row, or the operation completes (R26, R112, R132). -/
structure PixelStep (o : Operation) (s t : State) : Prop where
  cfg : t.cfg = s.cfg
  opl : t.opl = s.opl
  pending : t.pending = s.pending
  replies : t.replies = s.replies
  draws : t.draws = s.draws
  operand : ∀ n, n ≠ outReg o → t.x n = s.x n
  gi : t.gi = trunc (lenw s.cfg) (s.gi + 1)
  bi : t.bi = if s.endsByte then trunc (lenw s.cfg) (s.bi + 1) else s.bi
  cursor :
    (s.c + 1 ≠ s.width ∧ t.r = trunc s.cfg.dimw s.r ∧ t.c = trunc s.cfg.dimw (s.c + 1) ∧
      t.status = s.status ∧ t.x (outReg o) = s.x (outReg o)) ∨
    (s.c + 1 = s.width ∧ s.r + 1 < s.height ∧ t.r = trunc s.cfg.dimw (s.r + 1) ∧ t.c = 0 ∧
      t.status = s.status ∧ t.x (outReg o) = s.x (outReg o)) ∨
    (s.c + 1 = s.width ∧ s.height ≤ s.r + 1 ∧ t.r = s.r ∧ t.c = s.c ∧
      t.status = ⟨false, true, .noError⟩ ∧ t.x (outReg o) = trunc (lenw s.cfg) (t.outIndex o))

theorem packPixel_pixelStep (e : Entry) (s : State) : PixelStep .pack s (packPixel e s) := by
  obtain ⟨t, rfl, -, hbi, -, hgi, hcfg, hwidth, hheight, hglen, hopl, -, hpending, hreplies, hdraws, hend⟩ :=
    packPixel_cases e s
  refine ⟨hcfg, hopl, hpending, hreplies, hdraws, fun n hn => ?_, hgi, hbi, hend⟩
  cases n with
  | width => exact hwidth
  | height => exact hheight
  | glen => exact hglen
  | blen => exact absurd rfl hn

theorem unpackPixel_pixelStep (cur : Byte) (s : State) : PixelStep .unpack s (unpackPixel cur s) := by
  obtain ⟨t, rfl, -, hbi, -, hgi, hcfg, hwidth, hheight, hblen, hopl, -, hpending, hreplies, hdraws, hend⟩ :=
    unpackPixel_cases cur s
  refine ⟨hcfg, hopl, hpending, hreplies, hdraws, fun n hn => ?_, hgi, hbi, hend⟩
  cases n with
  | width => exact hwidth
  | height => exact hheight
  | glen => exact absurd rfl hn
  | blen => exact hblen

theorem PixelStep.width {o : Operation} {s t : State} (h : PixelStep o s t) : t.width = s.width :=
  h.operand .width (by cases o <;> decide)

theorem PixelStep.height {o : Operation} {s t : State} (h : PixelStep o s t) : t.height = s.height :=
  h.operand .height (by cases o <;> decide)

theorem elementStep_pack {s : State} (pack : s.opl = .pack) : elementStep s = packStep s := by
  rw [elementStep, pack]

theorem elementStep_unpack {s : State} (unpack : s.opl = .unpack) : elementStep s = unpackStep s := by
  rw [elementStep, unpack]

/-- An element step fails the row check, which only PACK has, or does its operation's pixel, with `d` free values drawn
before either. -/
theorem elementStep_cases {s : State} {o : Operation} (hop : s.opl = o) : ∃ d,
    (o = .pack ∧ elementStep s = raise .pack .invalidInput { s with draws := d }) ∨
    PixelStep o { s with draws := d } (elementStep s) := by
  cases o with
  | pack =>
    rw [elementStep_pack hop]
    obtain ⟨e, d, -, ⟨-, h⟩ | ⟨-, h⟩⟩ := packStep_cases s <;> rw [h]
    · exact ⟨d, .inl ⟨rfl, rfl⟩⟩
    · exact ⟨d, .inr (packPixel_pixelStep e _)⟩
  | unpack =>
    rw [elementStep_unpack hop]
    obtain ⟨cur, d, -, h⟩ := unpackStep_cases s
    exact ⟨d, .inr (h ▸ unpackPixel_pixelStep cur _)⟩

/-! ### STATUS -/

theorem State.StatusOk.of_eq {s t : State} (ok : s.StatusOk) (h : t.status = s.status) : t.StatusOk := by
  obtain ⟨busy_done, err_done, busy_err, err_code⟩ := ok
  rw [← h] at busy_done err_done busy_err err_code
  exact ⟨busy_done, err_done, busy_err, err_code⟩

theorem State.StatusOk.of_done {t : State} {e : ErrCode} (h : t.status = ⟨false, true, e⟩) (he : e ≠ .parseError) :
    t.StatusOk := by
  constructor <;> simp [h, he]

theorem State.StatusOk.of_started {t : State} (h : t.status = ⟨true, false, .noError⟩) : t.StatusOk := by
  constructor <;> simp [h]

theorem State.StatusOk.of_zero {t : State} (h : t.status = Status.zero) : t.StatusOk := by
  constructor <;> simp [h, Status.zero]

theorem PixelStep.status {o : Operation} {s t : State} (h : PixelStep o s t) :
    t.status = s.status ∨ t.status = ⟨false, true, .noError⟩ := by
  obtain ⟨-, -, -, hst, -⟩ | ⟨-, -, -, -, hst, -⟩ | ⟨-, -, -, -, hst, -⟩ := h.cursor
  · exact .inl hst
  · exact .inl hst
  · exact .inr hst

theorem elementStep_statusOk {s : State} (ok : s.StatusOk) : (elementStep s).StatusOk := by
  obtain ⟨d, ⟨-, h⟩ | h⟩ := elementStep_cases (s := s) rfl
  · exact .of_done (h ▸ raise_status ..) (by decide)
  · obtain hst | hst := h.status
    · exact ok.of_eq hst
    · exact .of_done hst (by decide)

theorem Event.statusOk (s q t : State) (_ : Quiet s q) (h : Event s q t) (ok : q.StatusOk) : t.StatusOk := by
  cases h with
  | register => exact ok.of_eq (State.setX_status ..)
  | grid | byte => exact ok.of_eq rfl
  | refuse idle o v op next e check =>
    refine .of_done (raise_status o e q) ?_
    obtain rfl | rfl := startCheck_some check <;> decide
  | start => exact .of_started rfl
  | element => exact elementStep_statusOk ok
  | reset | powerUp => exact .of_zero rfl

/-- Settles O20: only a command, an element step and reset write STATUS, and each leaves one of R29's values. -/
theorem stepKeepsStatusInvariants : Obligations.StepKeepsStatusInvariants := by
  unfold Obligations.StepKeepsStatusInvariants
  exact fun s t ok h => step_keeps (fun _ _ hq ok => ok.of_eq hq.status) Event.statusOk h ok

/-! ### Widths -/

theorem State.WidthsOk.of_quiet {s t : State} (h : Quiet s t) (ok : s.WidthsOk) : t.WidthsOk := by
  rw [h]
  exact ⟨ok.width, ok.height, ok.glen, ok.blen, ok.r, ok.c, ok.gi, ok.bi⟩

theorem State.WidthsOk.x {s : State} (ok : s.WidthsOk) (n : OperandReg) : s.x n < 2 ^ regWidth s.cfg n := by
  cases n with
  | width => exact ok.width
  | height => exact ok.height
  | glen => exact ok.glen
  | blen => exact ok.blen

/-- The operand registers and the hidden ones, each within its width. -/
theorem State.WidthsOk.of_x {t : State} (x : ∀ n, t.x n < 2 ^ regWidth t.cfg n) (r : t.r < 2 ^ t.cfg.dimw)
    (c : t.c < 2 ^ t.cfg.dimw) (gi : t.gi < 2 ^ lenw t.cfg) (bi : t.bi < 2 ^ lenw t.cfg) : t.WidthsOk :=
  ⟨x .width, x .height, x .glen, x .blen, r, c, gi, bi⟩

theorem State.WidthsOk.setX {s : State} (ok : s.WidthsOk) (n : OperandReg) (v : Nat) : (s.setX n v).WidthsOk := by
  refine .of_x (fun n' => ?_) ?_ ?_ ?_ ?_
  · rw [State.setX_cfg]
    by_cases hn : n' = n
    · rw [hn, State.x_setX_same]; exact trunc_lt ..
    · rw [State.x_setX_other s v hn]; exact ok.x n'
  · rw [State.setX_r, State.setX_cfg]; exact ok.r
  · rw [State.setX_c, State.setX_cfg]; exact ok.c
  · rw [State.setX_gi, State.setX_cfg]; exact ok.gi
  · rw [State.setX_bi, State.setX_cfg]; exact ok.bi

theorem State.WidthsOk.raise {s : State} (ok : s.WidthsOk) (o : Operation) (e : ErrCode) : (raise o e s).WidthsOk := by
  obtain ⟨width, height, glen, blen, r, c, gi, bi⟩ := ok.setX (outReg o) 0
  exact ⟨width, height, glen, blen, r, c, gi, bi⟩

theorem regWidth_outReg (cfg : Config) (o : Operation) : regWidth cfg (outReg o) = lenw cfg := by cases o <;> rfl

theorem PixelStep.widthsOk {o : Operation} {s t : State} (h : PixelStep o s t) (ok : s.WidthsOk) : t.WidthsOk := by
  have out : t.x (outReg o) < 2 ^ regWidth s.cfg (outReg o) := by
    obtain ⟨-, -, -, -, hx⟩ | ⟨-, -, -, -, -, hx⟩ | ⟨-, -, -, -, -, hx⟩ := h.cursor <;> rw [hx]
    · exact ok.x _
    · exact ok.x _
    · rw [regWidth_outReg]; exact trunc_lt ..
  refine .of_x (fun n => ?_) ?_ ?_ ?_ ?_ <;> rw [h.cfg]
  · by_cases hn : n = outReg o
    · exact hn ▸ out
    · rw [h.operand n hn]; exact ok.x n
  · obtain ⟨-, hr, -⟩ | ⟨-, -, hr, -⟩ | ⟨-, -, hr, -⟩ := h.cursor <;> rw [hr]
    · exact trunc_lt ..
    · exact trunc_lt ..
    · exact ok.r
  · obtain ⟨-, -, hc, -⟩ | ⟨-, -, -, hc, -⟩ | ⟨-, -, -, hc, -⟩ := h.cursor <;> rw [hc]
    · exact trunc_lt ..
    · exact Nat.two_pow_pos _
    · exact ok.c
  · rw [h.gi]; exact trunc_lt ..
  · rw [h.bi]
    split
    · exact trunc_lt ..
    · exact ok.bi

theorem elementStep_widthsOk {s : State} (ok : s.WidthsOk) : (elementStep s).WidthsOk := by
  obtain ⟨d, h⟩ := elementStep_cases (s := s) rfl
  have ok' : { s with draws := d }.WidthsOk := ok.of_quiet rfl
  obtain ⟨-, h⟩ | h := h
  · exact h ▸ ok'.raise _ _
  · exact h.widthsOk ok'

theorem resetRegisters_widthsOk (s : State) : (resetRegisters s).WidthsOk := by
  have pos := Nat.two_pow_pos
  exact ⟨pos _, pos _, pos _, pos _, pos _, pos _, pos _, pos _⟩

theorem resetEvent_cfg (s : State) : (resetEvent s).cfg = s.cfg := by
  simp only [resetEvent, resetRegisters, forgetOutput]
  split
  · split <;> rfl
  · rfl

@[simp] theorem raise_cfg (o : Operation) (e : ErrCode) (s : State) : (raise o e s).cfg = s.cfg := by cases o <;> rfl

theorem Event.cfg (s q t : State) (_ : Quiet s q) (h : Event s q t) : t.cfg = q.cfg := by
  cases h with
  | register => exact State.setX_cfg ..
  | refuse => exact raise_cfg ..
  | element =>
    obtain ⟨d, ⟨-, h⟩ | h⟩ := elementStep_cases (s := q) rfl
    · rw [h, raise_cfg]
    · exact h.cfg
  | grid | byte | start | powerUp => rfl
  | reset => exact resetEvent_cfg q

theorem Event.widthsOk (s q t : State) (_ : Quiet s q) (h : Event s q t) (ok : q.WidthsOk) : t.WidthsOk := by
  cases h with
  | register idle n v => exact ok.setX n _
  | grid | byte => exact ⟨ok.width, ok.height, ok.glen, ok.blen, ok.r, ok.c, ok.gi, ok.bi⟩
  | refuse idle o v op next e => exact ok.raise o e
  | start =>
    have pos := Nat.two_pow_pos
    exact ⟨ok.width, ok.height, ok.glen, ok.blen, pos _, pos _, pos _, pos _⟩
  | element => exact elementStep_widthsOk ok
  | reset | powerUp => exact resetRegisters_widthsOk _

/-- Settles O21: every write of a register is narrowed to its width, and no event writes the parameters. -/
theorem stepKeepsRegisterWidths : Obligations.StepKeepsRegisterWidths := by
  unfold Obligations.StepKeepsRegisterWidths
  intro s t ok h
  refine ⟨step_keeps (fun _ _ hq ok => ok.of_quiet hq) Event.widthsOk h ok, ?_⟩
  exact step_keeps (P := fun t => t.cfg = s.cfg) (fun _ _ hq e => hq.cfg.trans e)
    (fun _ _ _ hq he e => (he.cfg _ _ _ hq).trans e) h rfl

/-! ### The memories -/

theorem State.MemoryOk.of_eq {s t : State} (ok : s.MemoryOk) (cfg : t.cfg = s.cfg) (gmem : t.gmem = s.gmem)
    (bmem : t.bmem = s.bmem) : t.MemoryOk := by
  constructor
  · rw [cfg, gmem]; exact ok.gmem
  · rw [cfg, bmem]; exact ok.bmem

@[simp] theorem raise_gmem (o : Operation) (e : ErrCode) (s : State) : (raise o e s).gmem = s.gmem := by cases o <;> rfl

@[simp] theorem raise_bmem (o : Operation) (e : ErrCode) (s : State) : (raise o e s).bmem = s.bmem := by cases o <;> rfl

theorem packPixel_memoryOk {s : State} (ok : s.MemoryOk) (e : Entry) : (packPixel e s).MemoryOk := by
  obtain ⟨t, rfl, hbmem, -, -, -, hcfg, -, -, -, -, hgmem, -⟩ := packPixel_cases e s
  constructor
  · rw [hcfg, hgmem]; exact ok.gmem
  · rw [hcfg, hbmem]
    split
    · exact Memory.write_wf ok.bmem _ _
    · exact ok.bmem

theorem unpackPixel_memoryOk {s : State} (ok : s.MemoryOk) (cur : Byte) : (unpackPixel cur s).MemoryOk := by
  obtain ⟨t, rfl, hgmem, -, -, -, hcfg, -, -, -, -, hbmem, -⟩ := unpackPixel_cases cur s
  constructor
  · rw [hcfg, hgmem]; exact Memory.write_wf ok.gmem _ _
  · rw [hcfg, hbmem]; exact ok.bmem

theorem elementStep_memoryOk {s : State} (ok : s.MemoryOk) : (elementStep s).MemoryOk := by
  cases hop : s.opl with
  | pack =>
    rw [elementStep_pack hop]
    obtain ⟨e, d, -, ⟨-, h⟩ | ⟨-, h⟩⟩ := packStep_cases s <;> rw [h]
    · exact ok.of_eq (raise_cfg ..) (raise_gmem ..) (raise_bmem ..)
    · exact packPixel_memoryOk (s := { s with draws := d }) (ok.of_eq rfl rfl rfl) e
  | unpack =>
    rw [elementStep_unpack hop]
    obtain ⟨cur, d, -, h⟩ := unpackStep_cases s
    exact h ▸ unpackPixel_memoryOk (s := { s with draws := d }) (ok.of_eq rfl rfl rfl) cur

theorem resetEvent_memoryOk {s : State} (ok : s.MemoryOk) : (resetEvent s).MemoryOk := by
  cases busy : s.status.busy with
  | false => rw [resetEvent_idle busy]; exact ok.of_eq rfl rfl rfl
  | true =>
    cases hop : s.opl with
    | pack => rw [resetEvent_packing busy hop]; exact ⟨ok.gmem, rfl⟩
    | unpack => rw [resetEvent_unpacking busy hop]; exact ⟨rfl, ok.bmem⟩

theorem Event.memoryOk (s q t : State) (_ : Quiet s q) (h : Event s q t) (ok : q.MemoryOk) : t.MemoryOk := by
  cases h with
  | register => exact ok.of_eq (State.setX_cfg ..) (State.setX_gmem ..) (State.setX_bmem ..)
  | grid => exact ⟨Memory.write_wf ok.gmem _ _, ok.bmem⟩
  | byte => exact ⟨ok.gmem, Memory.write_wf ok.bmem _ _⟩
  | refuse => exact ok.of_eq (raise_cfg ..) (raise_gmem ..) (raise_bmem ..)
  | start => exact ok.of_eq rfl rfl rfl
  | element => exact elementStep_memoryOk ok
  | reset => exact resetEvent_memoryOk ok
  | powerUp => exact ⟨rfl, rfl⟩

/-- Settles O22: every write of a memory keeps its form, and reset and power-up leave one as it is or empty it. -/
theorem stepKeepsMemoryCanonical : Obligations.StepKeepsMemoryCanonical := by
  unfold Obligations.StepKeepsMemoryCanonical
  exact fun s t ok h => step_keeps (fun _ _ hq ok => ok.of_eq hq.cfg hq.gmem hq.bmem) Event.memoryOk h ok

end Sys2Proof.Machine
end

section
/-! PROOFS. The whole invariant (10_state.md R25, R27, R32, 41_packer.md R115, 42_unpacker.md R137): the cursor after a
pixel, what is packed or unpacked after it, and that every step keeps all of it. -/

namespace Sys2Proof.Machine

/-! ### The invariant does not look at the schedule, the replies or the count of draws -/

theorem State.Inv.of_quiet {s t : State} (h : Quiet s t) (inv : s.Inv) : t.Inv := by
  obtain ⟨widths, memory, status, cursor, pack, unpack⟩ := inv
  refine ⟨widths.of_quiet h, memory.of_eq h.cfg h.gmem h.bmem, status.of_eq h.status, ?_, ?_, ?_⟩ <;> rw [h]
  · intro busy
    obtain ⟨row, col, grid, byte⟩ := cursor busy
    exact ⟨row, col, grid, byte⟩
  · intro busy op
    obtain ⟨input, rows, filled, empty, packed⟩ := pack busy op
    exact ⟨input, rows, filled, empty, packed⟩
  · intro busy op
    obtain ⟨input, held, unpacked⟩ := unpack busy op
    exact ⟨input, held, unpacked⟩

theorem State.Inv.setDraws {s : State} (inv : s.Inv) (d : Nat) : { s with draws := d }.Inv := inv.of_quiet rfl

/-! ### The cursor after a pixel -/

theorem State.endsByte_iff (s : State) : s.endsByte = true ↔ s.c % 8 = 7 ∨ s.c + 1 = s.width := by
  simp [State.endsByte, State.lastCol, lane]

/-- The last column's byte is the last of its row. -/
theorem State.rowBytes_of_lastCol {s : State} (hc : s.c + 1 = s.width) : s.rowBytes = s.c / 8 + 1 := by
  rw [State.rowBytes, ceil8_eq]
  omega

section Pixel

variable {o : Operation} {s t : State} (h : PixelStep o s t) (inv : s.Inv) (busy : s.status.busy = true)

include h in
theorem PixelStep.rowBytes : t.rowBytes = s.rowBytes := congrArg ceil8 h.width

include h inv busy

theorem PixelStep.gi_eq : t.gi = s.gi + 1 := h.gi.trans (inv.trunc_gi_succ busy)

theorem PixelStep.bi_eq : t.bi = if s.endsByte then s.bi + 1 else s.bi := by rw [h.bi, inv.trunc_bi_succ busy]

/-- The cursor's three ways on, within the ranges: to the next column, to the next row, or to the end of the operation,
where both indices are the counts of the whole grid. -/
theorem PixelStep.cursor_cases :
    (s.c + 1 < s.width ∧ t.r = s.r ∧ t.c = s.c + 1 ∧ t.status = s.status) ∨
    (s.c + 1 = s.width ∧ s.r + 1 < s.height ∧ t.r = s.r + 1 ∧ t.c = 0 ∧ t.status = s.status) ∨
    (t.status = ⟨false, true, .noError⟩ ∧ t.gi = s.width * s.height ∧ t.bi = s.byteCount ∧
      t.x (outReg o) = t.outIndex o) := by
  have col := (inv.cursor busy).col
  have widths := inv.widths
  obtain ⟨hc, hr', hc', hst, -⟩ | ⟨hc, hr, hr', hc', hst, -⟩ | ⟨hc, hr, -, -, hst, hx⟩ := h.cursor
  · rw [trunc_of_lt widths.r] at hr'
    rw [inv.trunc_c_succ busy] at hc'
    exact .inl ⟨by omega, hr', hc', hst⟩
  · rw [trunc_of_lt (hr.trans widths.height)] at hr'
    exact .inr (.inl ⟨hc, hr, hr', hc', hst⟩)
  · have hgi : t.gi = s.width * s.height := (h.gi_eq inv busy).trans (inv.gi_succ_of_lastPixel busy hc hr)
    have hbi : t.bi = s.byteCount := by
      rw [h.bi_eq inv busy, if_pos (s.endsByte_iff.mpr (.inr hc)), inv.bi_succ_of_lastPixel busy hc hr]
    refine .inr (.inr ⟨hst, hgi, hbi, hx.trans (trunc_of_lt ?_)⟩)
    cases o with
    | pack => exact hbi.trans_lt <| mul_lt_two_pow widths.height (Nat.lt_of_le_of_lt (ceil8_le _) widths.width)
    | unpack => exact hgi.trans_lt <| mul_lt_two_pow widths.width widths.height

theorem PixelStep.cursorOk (busy' : t.status.busy = true) : t.CursorOk := by
  obtain ⟨row, col, grid, byte⟩ := inv.cursor busy
  have hgi := h.gi_eq inv busy
  have hbi := h.bi_eq inv busy
  obtain ⟨hc, hr', hc', -⟩ | ⟨hc, hr, hr', hc', -⟩ | ⟨hst, -⟩ := h.cursor_cases inv busy
  · refine ⟨by rwa [hr', h.height], by rwa [hc', h.width], by rw [hgi, hr', hc', h.width, grid, Nat.add_assoc], ?_⟩
    rw [hbi, hr', hc', h.rowBytes, byte]
    split
    next ends => have : s.c % 8 = 7 := (s.endsByte_iff.mp ends).resolve_right (by omega); omega
    next inside => have : s.c % 8 ≠ 7 := fun h7 => inside (s.endsByte_iff.mpr (.inl h7)); omega
  · refine ⟨by rwa [hr', h.height], by rw [hc', h.width]; omega, ?_, ?_⟩
    · rw [hgi, hr', hc', h.width, grid, Nat.succ_mul]; omega
    · rw [hbi, if_pos (s.endsByte_iff.mpr (.inr hc)), hr', hc', h.rowBytes, byte, Nat.succ_mul,
        State.rowBytes_of_lastCol hc]
      omega
  · rw [hst] at busy'; cases busy'

end Pixel

/-! ### What PACK has packed -/

/-- A lane of the byte at the cursor is the bit of its column. -/
theorem bitPos_lane {c j : Nat} (hj : j < 8) : bitPos (8 * (c / 8) + j) = 7 - j := by unfold bitPos lane; omega

section Pack

variable {s : State} {e : Entry} (inv : s.Inv) (busy : s.status.busy = true) (pack : s.opl = .pack)
  (known : ∀ e', Memory.read? s.gmem s.gi = some e' → e' = e)
include inv busy pack

include known in
/-- Where the current column joins `acc`, its bits are those of the columns from the start of the byte up to it (R32). -/
theorem filledByte_filled {j : Nat} (hj : 8 * (s.c / 8) ≤ j) (hjc : j ≤ s.c) {e' : Entry}
    (he : Memory.read? s.gmem (s.r * s.width + j) = some e') :
    (filledByte e s).getLsbD (bitPos j) = bin (entrySample e') := by
  rw [inv.filledByte_getLsbD busy pack]
  obtain hlt | rfl := Nat.lt_or_eq_of_le hjc
  · rw [if_neg (by unfold bitPos lane; omega)]
    exact (inv.pack busy pack).filled j hj hlt e' he
  · rw [if_pos rfl, known e' ((inv.cursor busy).grid ▸ he)]

/-- The bits after the current column are 0 (R32). -/
theorem filledByte_empty {p : Nat} (hp : p < bitPos s.c) : (filledByte e s).getLsbD p = false := by
  rw [inv.filledByte_getLsbD busy pack, if_neg (by omega)]
  exact (inv.pack busy pack).empty p (by omega)

include known

/-- Every byte below the advanced index is packed, whether the operation goes on or completes (R115). -/
theorem packPixel_packed {r k : Nat} (hk : k < s.rowBytes) (hrk : r * s.rowBytes + k < (packPixel e s).bi) :
    packedByteOk (packPixel e s) r k := by
  obtain ⟨-, col, grid, byte⟩ := inv.cursor busy
  have hbi := (packPixel_pixelStep e s).bi_eq inv busy
  obtain ⟨_, rfl, hbmem, -, -, -, -, hwidth, -, -, -, hgmem, -⟩ := packPixel_cases e s
  rw [packedByteOk, (packPixel_pixelStep e s).rowBytes, hwidth, hgmem, hbmem]
  split at hbi
  next ends =>
    rw [if_pos ends]
    obtain hold | hnew := Nat.lt_or_eq_of_le (Nat.le_of_lt_succ (hbi ▸ hrk))
    · rw [Memory.read?_write_other _ _ hold.ne]
      exact (inv.pack busy pack).packed r k hk hold
    · rw [hnew, Memory.read?_write_same _ _ (inv.bi_lt_bcap busy)]
      obtain ⟨rfl, rfl⟩ := index_inj hk (div8_lt_ceil8 col) (hnew.trans byte)
      refine ⟨_, rfl, fun j hj => ⟨fun hw e' he => ?_, fun hw => ?_⟩⟩
      · have hjc : 8 * (s.c / 8) + j ≤ s.c := by obtain h | h := s.endsByte_iff.mp ends <;> omega
        rw [← bitPos_lane hj]
        exact filledByte_filled inv busy pack known (by omega) hjc he
      · exact filledByte_empty inv busy pack (by unfold bitPos lane; omega)
  next inside =>
    rw [if_neg inside]
    exact (inv.pack busy pack).packed r k hk (hbi ▸ hrk)

theorem packPixel_packOk (right : entryEol e = s.lastCol) (busy' : (packPixel e s).status.busy = true) :
    (packPixel e s).PackOk := by
  have hcol := (inv.cursor busy).col
  have hgrid := (inv.cursor busy).grid
  obtain ⟨input, rows, -, -, -⟩ := inv.pack busy pack
  have step := packPixel_pixelStep e s
  have hgi := step.gi_eq inv busy
  have hcases := step.cursor_cases inv busy
  have hrb := step.rowBytes
  have packed {r k} := packPixel_packed inv busy pack known (r := r) (k := k)
  obtain ⟨_, rfl, -, -, hacc, -, -, hwidth, hheight, hglen, -, hgmem, -⟩ := packPixel_cases e s
  refine ⟨?input, fun r c hc hlt e' he => ?rows, fun j hj hjc e' he => ?filled, fun p hp => ?empty,
    fun r k hk hlt => packed (hrb ▸ hk) (hrb ▸ hlt)⟩
  case input => rw [hglen, State.entryCount, hwidth, hheight]; exact input
  case rows =>
    rw [hwidth] at hc hlt he ⊢
    rw [hgmem] at he
    obtain hold | hnew := Nat.lt_or_eq_of_le (Nat.le_of_lt_succ (hgi ▸ hlt))
    · exact rows r c hc hold e' he
    · obtain ⟨rfl, rfl⟩ := index_inj hc hcol (hnew.trans hgrid)
      rw [known e' (hnew ▸ he)]
      exact right
  case filled =>
    obtain ⟨hc, hr', hc', -⟩ | ⟨-, -, -, hc', -⟩ | ⟨hst, -⟩ := hcases
    · rw [hgmem, hwidth, hr'] at he
      rw [hc'] at hj hjc
      have inside : ¬s.endsByte = true := fun ends => by obtain h | h := s.endsByte_iff.mp ends <;> omega
      rw [hacc, if_neg inside]
      exact filledByte_filled inv busy pack known (by omega) (by omega) he
    · omega
    · rw [hst] at busy'; cases busy'
  case empty =>
    rw [hacc]
    split
    next => exact BitVec.getLsbD_zero
    next inside =>
      obtain ⟨hc, hr', hc', -⟩ | ⟨hc, -⟩ | ⟨hst, -⟩ := hcases
      · have : s.c % 8 ≠ 7 := fun h7 => inside (s.endsByte_iff.mpr (.inl h7))
        rw [hc'] at hp
        exact filledByte_empty inv busy pack (by unfold bitPos lane at *; omega)
      · exact absurd (s.endsByte_iff.mpr (.inr hc)) inside
      · rw [hst] at busy'; cases busy'

end Pack

/-! ### What UNPACK has unpacked -/

section Unpack

variable {s : State} {cur : Byte} (inv : s.Inv) (busy : s.status.busy = true) (unpack : s.opl = .unpack)
  (known : ∀ b, Memory.read? s.bmem s.bi = some b → b = cur)
include inv busy unpack known

/-- Every entry below the advanced index is unpacked, whether the operation goes on or completes (R137). -/
theorem unpackPixel_unpacked {r c : Nat} (hc : c < s.width) (hrc : r * s.width + c < (unpackPixel cur s).gi) :
    unpackedEntryOk (unpackPixel cur s) r c := by
  obtain ⟨-, col, grid, byte⟩ := inv.cursor busy
  rw [(unpackPixel_pixelStep cur s).gi_eq inv busy] at hrc
  have hread := unpackPixel_gmem inv busy cur
  obtain ⟨_, rfl, -, -, -, -, -, hwidth, -, -, -, hbmem, -⟩ := unpackPixel_cases cur s
  rw [unpackedEntryOk, (unpackPixel_pixelStep cur s).rowBytes, hwidth, hbmem, hread]
  obtain hold | hnew := Nat.lt_or_eq_of_le (Nat.le_of_lt_succ hrc)
  · rw [if_neg hold.ne]
    exact (inv.unpack busy unpack).unpacked r c hc hold
  · rw [if_pos hnew]
    obtain ⟨rfl, rfl⟩ := index_inj hc col (hnew.trans grid)
    refine ⟨_, rfl, entryEol_mkEntry _ _, ?_, fun b hb => ?_⟩
    · rw [unpackedEntry, entrySample_mkEntry]
      cases cur.getLsbD (bitPos s.c) <;> simp
    · rw [unpackedEntry, entrySample_mkEntry, known b (byte ▸ hb)]

theorem unpackPixel_unpackOk (busy' : (unpackPixel cur s).status.busy = true) : (unpackPixel cur s).UnpackOk := by
  have step := unpackPixel_pixelStep cur s
  have hbi := step.bi_eq inv busy
  have hcases := step.cursor_cases inv busy
  have unpacked {r c} := unpackPixel_unpacked inv busy unpack known (r := r) (c := c)
  obtain ⟨_, rfl, -, -, hacc, -, -, hwidth, hheight, hblen, -, hbmem, -⟩ := unpackPixel_cases cur s
  refine ⟨?input, fun hl b hb => ?held, fun r c hc hlt => ?unpacked⟩
  case input =>
    rw [hblen, State.byteCount, State.rowBytes, hwidth, hheight]
    exact (inv.unpack busy unpack).input
  case held =>
    obtain ⟨hc, hr', hc', -⟩ | ⟨-, -, -, hc', -⟩ | ⟨hst, -⟩ := hcases
    · rw [hc'] at hl
      have inside : ¬s.endsByte = true := fun ends => by
        unfold lane at hl
        obtain h | h := s.endsByte_iff.mp ends <;> omega
      rw [if_neg inside] at hbi
      rw [hbmem, hbi] at hb
      rw [hacc, known b hb]
    · rw [hc'] at hl; exact absurd rfl hl
    · rw [hst] at busy'; cases busy'
  case unpacked =>
    rw [hwidth] at hc hlt
    exact unpacked hc hlt

end Unpack

end Sys2Proof.Machine
end

section
/-! PROOFS. That every step keeps the whole invariant (10_state.md sections 3, 4 and 6), and what follows of one element
step of a running operation: its indices are in range, it makes progress, and a completing one leaves the result. -/

namespace Sys2Proof.Machine

/-! ### The invariant of an idle block and of an operation just started -/

theorem State.Inv.of_idle {t : State} (widths : t.WidthsOk) (memory : t.MemoryOk) (status : t.StatusOk)
    (idle : t.status.busy = false) : t.Inv := by
  refine ⟨widths, memory, status, ?_, ?_, ?_⟩ <;> simp [idle]

theorem State.started_inv {s : State} {o : Operation} (inv : s.Inv) (check : startCheck o s = none) :
    (s.started o).Inv := by
  obtain ⟨hw, hh⟩ := startCheck_none_dims check
  obtain ⟨width, height, glen, blen, -, -, -, -⟩ := inv.widths
  have pos := Nat.two_pow_pos
  refine ⟨⟨width, height, glen, blen, pos _, pos _, pos _, pos _⟩, inv.memory.of_eq rfl rfl rfl, .of_started rfl,
    fun _ => ⟨hh, hw, ?_, ?_⟩, fun _ pack => ?pack, fun _ unpack => ?unpack⟩
  · simp [State.started]
  · simp [State.started]
  case pack =>
    obtain rfl : o = .pack := pack
    obtain ⟨-, -, input⟩ := packStartCheck_none.mp check
    exact ⟨input, fun _ _ _ h => absurd h (Nat.not_lt_zero _), fun _ _ h => absurd h (Nat.not_lt_zero _),
      fun _ _ => BitVec.getLsbD_zero, fun _ _ _ h => absurd h (Nat.not_lt_zero _)⟩
  case unpack =>
    obtain rfl : o = .unpack := unpack
    obtain ⟨-, -, input⟩ := unpackStartCheck_none.mp check
    exact ⟨input, fun h => absurd rfl h, fun _ _ _ h => absurd h (Nat.not_lt_zero _)⟩

/-! ### Element steps keep it -/

/-- The entry an element step of PACK reads is the known one, where there is one. -/
theorem packRead_known {s : State} {e : Entry} {d : Nat}
    (read : (Memory.read? s.gmem s.gi = some e ∧ d = s.draws) ∨
      (Memory.read? s.gmem s.gi = none ∧ e = (Config.freeWord s.draws).setWidth 9 ∧ d = s.draws + 1)) :
    ∀ e', Memory.read? s.gmem s.gi = some e' → e' = e := by
  intro e' he
  obtain ⟨h, -⟩ | ⟨h, -⟩ := read <;> rw [h] at he
  · exact (Option.some.inj he).symm
  · cases he

/-- The byte an element step of UNPACK works on is the known one, where there is one: just read, or held in `acc`. -/
theorem unpackFetch_known {s : State} (inv : s.Inv) (busy : s.status.busy = true) (unpack : s.opl = .unpack) {cur : Byte}
    {d : Nat} (fetch : (lane s.c = 0 ∧ Memory.read? s.bmem s.bi = some cur ∧ d = s.draws) ∨
      (lane s.c = 0 ∧ Memory.read? s.bmem s.bi = none ∧ cur = (Config.freeWord s.draws).setWidth 8 ∧ d = s.draws + 1) ∨
      (lane s.c ≠ 0 ∧ cur = s.acc ∧ d = s.draws)) :
    ∀ b, Memory.read? s.bmem s.bi = some b → b = cur := by
  intro b hb
  obtain ⟨-, h, -⟩ | ⟨-, h, -⟩ | ⟨hl, rfl, -⟩ := fetch
  · exact Option.some.inj (hb.symm.trans h)
  · rw [h] at hb; cases hb
  · exact ((inv.unpack busy unpack).held hl b hb).symm

theorem elementStep_opl (s : State) : (elementStep s).opl = s.opl := by
  obtain ⟨d, ⟨pack, h⟩ | h⟩ := elementStep_cases (s := s) rfl
  · rw [h, raise_pack_eq]
  · exact h.opl

theorem elementStep_inv {s : State} (inv : s.Inv) (busy : s.status.busy = true) : (elementStep s).Inv := by
  refine ⟨elementStep_widthsOk inv.widths, elementStep_memoryOk inv.memory, elementStep_statusOk inv.status,
    fun busy' => ?cursor, fun busy' op => ?pack, fun busy' op => ?unpack⟩
  case cursor =>
    obtain ⟨d, ⟨-, h⟩ | h⟩ := elementStep_cases (s := s) rfl
    · rw [h, raise_status] at busy'; cases busy'
    · exact h.cursorOk (inv.setDraws d) busy busy'
  case pack =>
    have pack : s.opl = .pack := (elementStep_opl s).symm.trans op
    rw [elementStep_pack pack] at busy' ⊢
    obtain ⟨e, d, read, ⟨-, h⟩ | ⟨right, h⟩⟩ := packStep_cases s <;> rw [h] at busy' ⊢
    · rw [raise_status] at busy'; cases busy'
    · have known := packRead_known read
      exact packPixel_packOk (inv.setDraws d) busy pack known right busy'
  case unpack =>
    have unpack : s.opl = .unpack := (elementStep_opl s).symm.trans op
    rw [elementStep_unpack unpack] at busy' ⊢
    obtain ⟨cur, d, fetch, h⟩ := unpackStep_cases s
    rw [h] at busy' ⊢
    have known := unpackFetch_known inv busy unpack fetch
    exact unpackPixel_unpackOk (inv.setDraws d) busy unpack known busy'

theorem Event.inv (s q t : State) (hq : Quiet s q) (h : Event s q t) (inv : q.Inv) : t.Inv := by
  have idle (idle : t.status.busy = false) : t.Inv :=
    .of_idle (h.widthsOk _ _ _ hq inv.widths) (h.memoryOk _ _ _ hq inv.memory) (h.statusOk _ _ _ hq inv.status) idle
  cases h with
  | register hidle => exact idle (hidle ▸ congrArg Status.busy (State.setX_status ..))
  | grid hidle | byte hidle => exact idle hidle
  | refuse | reset | powerUp => exact idle rfl
  | start _ o _ _ _ check => exact State.started_inv inv check
  | element next => exact elementStep_inv inv (hq.status ▸ next.1)

/-- Settles O23: a quiet move leaves everything the invariant speaks of, an event that leaves the block idle needs only the
three parts of every state, and the other two are a start and an element step. -/
theorem stepKeepsInvariant : Obligations.StepKeepsInvariant := by
  unfold Obligations.StepKeepsInvariant
  exact fun s t inv h => step_keeps (fun _ _ hq inv => inv.of_quiet hq) Event.inv h inv

/-- Settles O24: every register is 0 and nothing is known of the memories, so the block is idle within every range. -/
theorem resetStateMeetsInvariant : Obligations.ResetStateMeetsInvariant := by
  unfold Obligations.ResetStateMeetsInvariant
  have widths : State.reset.WidthsOk := resetRegisters_widthsOk State.reset
  exact ⟨.of_idle widths ⟨rfl, rfl⟩ (.of_zero rfl) rfl, by decide, rfl, rfl, rfl, rfl, rfl, rfl, rfl, rfl, rfl, rfl, rfl,
    rfl, fun _ => rfl, fun _ => rfl⟩

/-- Settles O25: the cursor names a pixel of the grid, and no grid is larger than the memories. -/
theorem blockIndicesAreInRange : Obligations.BlockIndicesAreInRange := by
  unfold Obligations.BlockIndicesAreInRange
  intro s inv busy
  have hw : s.width ≤ dimMax s.cfg := Nat.le_pred_of_lt inv.widths.width
  have hh : s.height ≤ dimMax s.cfg := Nat.le_pred_of_lt inv.widths.height
  rw [← byteCount_eq]
  exact ⟨Nat.mul_comm s.height s.width ▸ inv.gi_lt busy, Nat.mul_le_mul hw hh, inv.bi_lt busy,
    Nat.mul_le_mul hh (ceil8_mono hw)⟩

/-! ### Progress -/

/-- An element step after which the operation still runs has come one entry further, and another entry is left. -/
theorem elementStep_goesOn {s : State} (inv : s.Inv) (busy : s.status.busy = true)
    (busy' : (elementStep s).status.busy = true) :
    (elementStep s).gi = s.gi + 1 ∧ s.gi + 1 < s.width * s.height := by
  have hlt := (elementStep_inv inv busy).gi_lt busy'
  obtain ⟨d, ⟨-, h⟩ | h⟩ := elementStep_cases (s := s) rfl
  · rw [h, raise_status] at busy'; cases busy'
  · have hgi := h.gi_eq (inv.setDraws d) busy
    rw [hgi, h.height, h.width, Nat.mul_comm] at hlt
    exact ⟨hgi, hlt⟩

/-- What an element step comes to: one entry further and still running, the end without error after the last entry, or
InvalidInput, which only PACK has. -/
theorem elementStep_progress {s : State} (inv : s.Inv) (busy : s.status.busy = true) :
    ((elementStep s).status = s.status ∧ (elementStep s).gi = s.gi + 1 ∧ s.gi + 1 < s.width * s.height) ∨
    ((elementStep s).status = ⟨false, true, .noError⟩ ∧ s.gi + 1 = s.width * s.height) ∨
    ((elementStep s).status = ⟨false, true, .invalidInput⟩ ∧ s.opl = .pack) := by
  have goesOn (hst : (elementStep s).status = s.status) := elementStep_goesOn inv busy (hst ▸ busy)
  obtain ⟨d, ⟨pack, h⟩ | h⟩ := elementStep_cases (s := s) rfl
  · exact .inr (.inr ⟨h ▸ raise_status .., pack⟩)
  · obtain ⟨-, -, -, hst⟩ | ⟨-, -, -, -, hst⟩ | ⟨hst, hend, -⟩ := h.cursor_cases (inv.setDraws d) busy
    · exact .inl ⟨hst, goesOn hst⟩
    · exact .inl ⟨hst, goesOn hst⟩
    · exact .inr (.inl ⟨hst, (h.gi_eq (inv.setDraws d) busy).symm.trans hend⟩)

theorem elementStep_pending (s : State) : (elementStep s).pending = s.pending := by
  obtain ⟨d, ⟨-, h⟩ | h⟩ := elementStep_cases (s := s) rfl
  · rw [h, raise_pack_eq]
  · exact h.pending

theorem elementStep_replies (s : State) : (elementStep s).replies = s.replies := by
  obtain ⟨d, ⟨-, h⟩ | h⟩ := elementStep_cases (s := s) rfl
  · rw [h, raise_pack_eq]
  · exact h.replies

theorem blockTurn_replies (s : State) : (blockTurn s).replies = s.replies := by
  rw [blockTurn]
  split
  · exact elementStep_replies s
  · rfl

theorem blockTurn_setPending (s : State) (ms : List Move) : blockTurn (s.setPending ms) = (blockTurn s).setPending ms := by
  calc blockTurn (s.setPending ms) = (blockTurn s).env ms s.replies (blockTurn s).draws := blockTurn_env s ms s.replies
    _ = (blockTurn s).setPending ms := by rw [← blockTurn_replies s]; rfl

theorem step_scheduledTurn {s : State} {ms : List Move} (hs : s.pending = .block :: ms) :
    step s = .next ((blockTurn s).setPending ms) := by
  rw [step, nextMove, hs, ← blockTurn_setPending]
  rfl

/-- Settles O18: the block's turn does not look at the schedule. -/
theorem scheduledTurnIsTheBlocksTurn : Obligations.ScheduledTurnIsTheBlocksTurn := by
  unfold Obligations.ScheduledTurnIsTheBlocksTurn
  intro s t ms hs h
  obtain rfl := Host.Outcome.next.inj h
  rw [step_scheduledTurn hs]
  have unscheduled : blockTurn { s with pending := [] } = (blockTurn s).setPending [] := blockTurn_setPending s []
  rw [unscheduled]
  rfl

/-- Settles O19: the turn, scheduled or not, is the element step, of which `elementStep_progress` says what it comes to. -/
theorem elementStepMakesProgress : Obligations.ElementStepMakesProgress := by
  unfold Obligations.ElementStepMakesProgress
  intro s inv busy next
  have turn : ∃ ms, step s = .next ((elementStep s).setPending ms) := by
    rw [← blockTurn_busy busy]
    obtain hs | ⟨ms, hs⟩ := next
    · exact ⟨_, step_of_pending_nil hs⟩
    · exact ⟨ms, step_scheduledTurn hs⟩
  obtain ⟨ms, hstep⟩ := turn
  refine ⟨_, hstep, ?_⟩
  simp only [State.setPending_status, State.setPending_gi]
  obtain ⟨hst, hgi, hlt⟩ | ⟨hst, hend⟩ | ⟨hst, pack⟩ := elementStep_progress inv busy
  · exact .inl ⟨hst ▸ busy, hgi, hgi ▸ hlt⟩
  · exact .inr (.inl (by simp [hst, hend]))
  · exact .inr (.inr ⟨hst, pack⟩)

/-! ### The result of a completing step -/

theorem entrySample_eq_setWidth (e : Entry) : entrySample e = e.setWidth 8 :=
  (BitVec.setWidth_eq_extractLsb' (by decide)).symm

theorem getLsbD_packByte (w : Nat) (row : Nat → Byte) (k : Nat) {p : Nat} (hp : p < 8) :
    (packByte w row k).getLsbD p = (decide (8 * k + (7 - p) < w) && bin (row (8 * k + (7 - p)))) := by
  rw [packByte, getLsbD_laneByte _ hp]

/-- A packed byte all of whose entries are known is the byte of R115. -/
theorem packedByteOk.eq_packByte {t : State} {w r k : Nat} (ok : packedByteOk t r k) (hw : t.width = w) {row : Nat → Byte}
    (known : ∀ c < w, c < 8 * k + 8 → ∃ e, Memory.read? t.gmem (r * w + c) = some e ∧ entrySample e = row c) :
    Memory.read? t.bmem (r * ceil8 w + k) = some (packByte w row k) := by
  subst hw
  obtain ⟨b, hb, bits⟩ := ok
  refine hb.trans (congrArg some (BitVec.eq_of_getLsbD_eq fun p hp => ?_))
  obtain ⟨inside, outside⟩ := bits (7 - p) (by omega)
  rw [show 7 - (7 - p) = p by omega] at inside outside
  rw [getLsbD_packByte _ _ _ hp]
  by_cases hc : 8 * k + (7 - p) < t.width
  · obtain ⟨e, he, hrow⟩ := known _ hc (by omega)
    rw [inside hc e he, hrow, decide_eq_true hc, Bool.true_and]
  · rw [outside (Nat.le_of_not_lt hc), decide_eq_false hc, Bool.false_and]

section Completing

variable {s : State} (inv : s.Inv) (busy : s.status.busy = true) (done : (elementStep s).status = ⟨false, true, .noError⟩)
include inv busy done

/-- The step in which a PACK completes leaves every byte of the result packed, and their number in BLEN. -/
theorem packStep_completes (pack : s.opl = .pack) : (elementStep s).blen = s.byteCount ∧
    ∀ r k, r < s.height → k < s.rowBytes → packedByteOk (elementStep s) r k := by
  rw [elementStep_pack pack] at done ⊢
  obtain ⟨e, d, read, ⟨-, h⟩ | ⟨-, h⟩⟩ := packStep_cases s <;> rw [h] at done ⊢
  · rw [raise_status] at done; cases done
  have inv' := inv.setDraws d
  have known := packRead_known read
  have running : { s with draws := d }.status.busy = true := busy
  obtain ⟨-, -, -, hst⟩ | ⟨-, -, -, -, hst⟩ | ⟨-, -, hbi, hblen⟩ := (packPixel_pixelStep e _).cursor_cases inv' busy
  · rw [← hst, done] at running; cases running
  · rw [← hst, done] at running; cases running
  · exact ⟨hblen.trans hbi, fun r k hr hk => packPixel_packed inv' busy pack known hk (hbi ▸ index_lt hr hk)⟩

/-- The step in which an UNPACK completes leaves every entry of the result unpacked, and their number in GLEN. -/
theorem unpackStep_completes (unpack : s.opl = .unpack) : (elementStep s).glen = s.entryCount ∧
    ∀ r c, r < s.height → c < s.width → unpackedEntryOk (elementStep s) r c := by
  rw [elementStep_unpack unpack] at done ⊢
  obtain ⟨cur, d, fetch, h⟩ := unpackStep_cases s
  rw [h] at done ⊢
  have inv' := inv.setDraws d
  have known := unpackFetch_known inv busy unpack fetch
  have running : { s with draws := d }.status.busy = true := busy
  obtain ⟨-, -, -, hst⟩ | ⟨-, -, -, -, hst⟩ | ⟨-, hgi, -, hglen⟩ := (unpackPixel_pixelStep cur _).cursor_cases inv' busy
  · rw [← hst, done] at running; cases running
  · rw [← hst, done] at running; cases running
  · exact ⟨hglen.trans hgi, fun r c hr hc => unpackPixel_unpacked inv' busy unpack known hc
      (hgi ▸ (index_lt hr hc).trans_eq (Nat.mul_comm ..))⟩

end Completing

/-! ### The registers and the input memory after an element step -/

theorem elementStep_width (s : State) : (elementStep s).width = s.width := by
  obtain ⟨d, ⟨-, h⟩ | h⟩ := elementStep_cases (s := s) rfl
  · rw [h, raise_pack_eq]
  · exact h.width

theorem elementStep_height (s : State) : (elementStep s).height = s.height := by
  obtain ⟨d, ⟨-, h⟩ | h⟩ := elementStep_cases (s := s) rfl
  · rw [h, raise_pack_eq]
  · exact h.height

theorem packStep_gmem (s : State) : (packStep s).gmem = s.gmem := by
  obtain ⟨e, d, -, ⟨-, h⟩ | ⟨-, h⟩⟩ := packStep_cases s <;> rw [h]
  · rw [raise_gmem]
  · obtain ⟨_, rfl, -, -, -, -, -, -, -, -, -, hgmem, -⟩ := packPixel_cases e { s with draws := d }
    exact hgmem

/-- Settles O30: over a well-formed grid the step that ends the operation completes it, and over known entries a packed
byte is the sum. -/
theorem packResultInClosedForm : Obligations.PackResultInClosedForm := by
  unfold Obligations.PackResultInClosedForm
  intro s t inv pending busy pack grid h idle
  rw [step_of_pending_nil pending, blockTurn_busy busy] at h
  obtain rfl := Host.Outcome.next.inj h
  have done : (elementStep s).status = ⟨false, true, .noError⟩ := by
    obtain ⟨row, col, hgi, -⟩ := inv.cursor busy
    obtain ⟨e, he, right⟩ := grid s.r s.c row col
    rw [← hgi] at he
    have hstep : elementStep s = packPixel e s :=
      (elementStep_pack pack).trans ((packStep_known he).trans (if_neg (not_not_intro right)))
    rw [hstep] at idle ⊢
    obtain hst | hst := (packPixel_pixelStep e s).status
    · rw [hst, busy] at idle; cases idle
    · exact hst
  obtain ⟨hblen, packed⟩ := packStep_completes inv busy done pack
  have hgmem : (elementStep s).gmem = s.gmem := (congrArg State.gmem (elementStep_pack pack)).trans (packStep_gmem s)
  rw [← ceil8_eq, elementStep_height, elementStep_width, hgmem]
  refine ⟨done, hblen, fun r k hr hk => ⟨_, (packed r k hr hk).eq_packByte (elementStep_width s)
    (row := fun c => ((Memory.read? s.gmem (r * s.width + c)).getD 0#9).setWidth 8) fun c hc _ => ?_, ?_⟩⟩
  · obtain ⟨e, he, -⟩ := grid r c hr hc
    exact ⟨e, hgmem ▸ he, by rw [he, entrySample_eq_setWidth]; rfl⟩
  · rw [toNat_packByte]
    simp only [ne_eq, ite_and, ite_not]

/-- Settles O31: the step that ends the operation completes it, and an unpacked entry whose byte is known is R137's. -/
theorem unpackResultInClosedForm : Obligations.UnpackResultInClosedForm := by
  unfold Obligations.UnpackResultInClosedForm
  intro s t inv pending busy unpack h idle
  rw [step_of_pending_nil pending, blockTurn_busy busy] at h
  obtain rfl := Host.Outcome.next.inj h
  have done : (elementStep s).status = ⟨false, true, .noError⟩ := by
    obtain ⟨hst, -⟩ | ⟨hst, -⟩ | ⟨-, pack⟩ := elementStep_progress inv busy
    · rw [hst, busy] at idle; cases idle
    · exact hst
    · rw [unpack] at pack; cases pack
  obtain ⟨hglen, unpacked⟩ := unpackStep_completes inv busy done unpack
  rw [← ceil8_eq, elementStep_height, elementStep_width]
  refine ⟨done, hglen, fun r c b hr hc hb => ?_⟩
  obtain ⟨e, he, heol, -, hsample⟩ := unpacked r c hr hc
  rw [elementStep_width] at he heol
  refine ⟨e, he, heol.trans (decide_eq_decide.mpr (by omega)), ?_⟩
  rw [State.rowBytes, elementStep_width] at hsample
  rw [← entrySample_eq_setWidth, hsample b hb]
  rfl

end Sys2Proof.Machine
end

section
/-! PROOFS. The laws of the two transforms as pure functions (43_codec_laws.md section 2) and the image of a grid in GMEM
(30_encoding.md section 3, 41_packer.md R113): the elements of a rectangular grid's lists by row and column. -/

namespace Sys2Proof.Machine

/-- Settles O53: each reading of `bin` is a statement about one byte or one bit. -/
theorem binarizerReadings : Obligations.BinarizerReadings := by
  unfold Obligations.BinarizerReadings
  exact ⟨by decide, by decide, bin_white⟩

/-! ### Lists by row and column -/

/-- An index is its row and its column (R26). -/
theorem row_col_eq (i w : Nat) : i / w * w + i % w = i := by rw [Nat.mul_comm, Nat.div_add_mod]

theorem row_lt {i w h : Nat} (h' : i < h * w) : i / w < h := Nat.div_lt_of_lt_mul (Nat.mul_comm h w ▸ h')

theorem mod_row_col {r c w : Nat} (hc : c < w) : (r * w + c) % w = c := by
  rw [Nat.mul_comm, Nat.mul_add_mod, Nat.mod_eq_of_lt hc]

theorem div_row_col {r c w : Nat} (hc : c < w) : (r * w + c) / w = r := by
  rw [Nat.mul_comm, Nat.mul_add_div (Nat.zero_lt_of_lt hc), Nat.div_eq_of_lt hc, Nat.add_zero]

/-- Two lists of `h` rows of `w` elements are equal when they agree at every row and column. -/
theorem eq_of_getD_row_col {α : Type} {d : α} {l l' : List α} {w h : Nat} (hw : 0 < w) (hl : l.length = h * w)
    (hl' : l'.length = h * w) (heq : ∀ r c, r < h → c < w → l.getD (r * w + c) d = l'.getD (r * w + c) d) : l = l' := by
  refine List.ext_getElem (hl.trans hl'.symm) fun i hi hi' => ?_
  have h' := heq (i / w) (i % w) (row_lt (hl ▸ hi)) (Nat.mod_lt _ hw)
  rw [row_col_eq] at h'
  rwa [List.getD_eq_getElem _ _ hi, List.getD_eq_getElem _ _ hi'] at h'

/-- Rows of one length put one after another. -/
theorem flatMap_getD_row_col {α β : Type} {f : α → List β} {w : Nat} {l : List α} (hf : ∀ a ∈ l, (f a).length = w)
    {r c : Nat} (hr : r < l.length) (hc : c < w) (d : β) : (l.flatMap f).getD (r * w + c) d = (f l[r]).getD c d := by
  induction l generalizing r with
  | nil => cases hr
  | cons a l ih =>
    obtain ⟨ha, hl⟩ := List.forall_mem_cons.mp hf
    rw [List.flatMap_cons]
    cases r with
    | zero =>
      rw [Nat.zero_mul, Nat.zero_add, List.getD_append _ _ _ _ (by rwa [ha])]
      rfl
    | succ r =>
      have hidx : (r + 1) * w + c - w = r * w + c := by rw [Nat.succ_mul]; omega
      rw [List.getD_append_right _ _ _ _ (by rw [ha, Nat.succ_mul]; omega), ha, hidx, ih hl (Nat.lt_of_succ_lt_succ hr)]
      rfl

/-- A rectangular grid is the table of its samples. -/
theorem eq_map_range_of_rectangular {g : List (List Byte)} {w h : Nat} (hg : rectangular g w h = true) :
    g = (List.range h).map fun r => (List.range w).map fun c => (g.getD r []).getD c 0#8 := by
  obtain ⟨rfl, hrow⟩ := rectangular_iff.mp hg
  refine List.ext_getElem (by simp) fun r hr _ => List.ext_getElem (by simp [hrow _ (List.getElem_mem hr)]) fun c hc _ => ?_
  simp [hr, hc]

/-! ### The laws of pack and unpack -/

theorem pack_ok {g : List (List Byte)} {w h : Nat} {p : List Byte} (hp : Codec.pack g w h = .ok p) :
    0 < w ∧ 0 < h ∧ rectangular g w h = true ∧ p = g.flatMap (packRow w) := by
  unfold Codec.pack at hp
  split at hp
  · cases hp
  split at hp
  · next dims hg => exact ⟨by omega, by omega, hg, (Except.ok.inj hp).symm⟩
  · cases hp

theorem unpack_ok {b : List Byte} {w h : Nat} {u : List (List Byte)} (hu : Codec.unpack b w h = .ok u) :
    0 < w ∧ 0 < h ∧ b.length = h * ceil8 w ∧
      u = (List.range h).map fun r => (List.range w).map fun c => unpackedSample b w r c := by
  unfold Codec.unpack at hu
  split at hu
  · cases hu
  split at hu
  · cases hu
  · next dims hb => exact ⟨by omega, by omega, not_not.mp hb, (Except.ok.inj hu).symm⟩

/-- Settles O56: the last byte of a row has no column at its low-order lanes. -/
theorem paddingBitsAreZero : Obligations.PaddingBitsAreZero := by
  unfold Obligations.PaddingBitsAreZero
  intro g w h p hp hm r hr
  obtain ⟨hw, -, hg, rfl⟩ := pack_ok hp
  obtain ⟨rfl, -⟩ := rectangular_iff.mp hg
  have hk : w / 8 < ceil8 w := by rw [ceil8_eq]; omega
  have hlast : r * ((w + 7) / 8) + (w + 7) / 8 - 1 = r * ceil8 w + w / 8 := by rw [ceil8_eq]; omega
  rw [hlast, flatMap_packRow_getD hk hr]
  refine BitVec.eq_of_getLsbD_eq fun i hi => ?_
  rw [BitVec.getLsbD_and, getLsbD_packByte _ _ _ hi, BitVec.getLsbD_ushiftRight, BitVec.getLsbD_zero]
  by_cases hcol : 8 * (w / 8) + (7 - i) < w
  · rw [BitVec.getLsbD_of_ge _ _ (by omega : 8 ≤ w % 8 + i), Bool.and_false]
  · rw [decide_eq_false hcol, Bool.false_and, Bool.false_and]

/-- Settles O57: a packed byte is a function of its row, and an unpacked sample of a byte of its row span. -/
theorem rowsAreIndependent : Obligations.RowsAreIndependent := by
  unfold Obligations.RowsAreIndependent
  simp only [← ceil8_eq]
  refine ⟨fun g g' w h j p p' hj hp hp' hrow k hk => ?packed, fun b b' w h j u u' hj hu hu' hspan => ?unpacked⟩
  case packed =>
    obtain ⟨-, -, hg, rfl⟩ := pack_ok hp
    obtain ⟨-, -, hg', rfl⟩ := pack_ok hp'
    obtain ⟨rfl, -⟩ := rectangular_iff.mp hg
    obtain ⟨hlen, -⟩ := rectangular_iff.mp hg'
    rw [flatMap_packRow_getD hk hj, flatMap_packRow_getD hk (hlen ▸ hj), hrow]
  case unpacked =>
    obtain ⟨-, -, -, rfl⟩ := unpack_ok hu
    obtain ⟨-, -, -, rfl⟩ := unpack_ok hu'
    have hsample : ∀ c ∈ List.range w, unpackedSample b w j c = unpackedSample b' w j c := fun c hc => by
      rw [unpackedSample, hspan _ (div8_lt_ceil8 (List.mem_range.mp hc)), unpackedSample]
    simp only [List.getD_eq_getElem?_getD, List.getElem?_map, List.getElem?_range hj, Option.map_some, Option.getD_some]
    exact List.map_congr_left hsample

theorem white_bin (x : Byte) : white (bin x) = if x = 0#8 then 0x00#8 else 0xFF#8 := by
  split
  · next h => rw [h]; rfl
  · next h => rw [(bin_eq_true_iff x).mpr h]; rfl

/-- Unpacking a packed grid binarizes every sample. -/
theorem unpackedSample_flatMap_packRow {g : List (List Byte)} {w r c : Nat} (hr : r < g.length) (hc : c < w) :
    unpackedSample (g.flatMap (packRow w)) w r c = white (bin ((g.getD r []).getD c 0#8)) := by
  rw [unpackedSample, flatMap_packRow_getD (div8_lt_ceil8 hc) hr, packByte_getLsbD_bitPos, decide_eq_true hc, Bool.true_and]

theorem unpack_pack {g : List (List Byte)} {w h : Nat} {p : List Byte} (hp : Codec.pack g w h = .ok p) :
    Codec.unpack p w h = .ok (g.map fun row => row.map fun x => if x = 0#8 then 0x00#8 else 0xFF#8) := by
  obtain ⟨hw, hh, hg, rfl⟩ := pack_ok hp
  obtain ⟨hlen, hrow⟩ := rectangular_iff.mp hg
  rw [unpack_eq_ok hw hh (by rw [length_flatMap_packRow, hlen])]
  congr 1
  conv_rhs => rw [eq_map_range_of_rectangular hg]
  rw [List.map_map]
  refine List.map_congr_left fun r hr => (List.map_congr_left fun c hc => ?_).trans List.map_map.symm
  rw [unpackedSample_flatMap_packRow (hlen ▸ List.mem_range.mp hr) (List.mem_range.mp hc), white_bin]
  rfl

/-- Settles O58: `unpack_pack`, of which a grid of 0 and 255 is the case where no sample changes. -/
theorem unpackInvertsPackOnBinaryGrids : Obligations.UnpackInvertsPackOnBinaryGrids := by
  unfold Obligations.UnpackInvertsPackOnBinaryGrids
  intro g w h p hp
  refine ⟨unpack_pack hp, fun pure => (unpack_pack hp).trans (congrArg Except.ok ?_)⟩
  have sample : ∀ row ∈ g, ∀ x ∈ row, (if x = 0#8 then 0x00#8 else 0xFF#8) = x := fun row hrow x hx => by
    obtain rfl | rfl := pure row hrow x hx <;> rfl
  exact (List.map_congr_left fun row hrow => (List.map_congr_left (sample row hrow)).trans (List.map_id' row)).trans
    (List.map_id' g)

theorem laneByte_congr {f f' : Nat → Bool} (h : ∀ j < 8, f j = f' j) : laneByte f = laneByte f' :=
  BitVec.eq_of_getLsbD_eq fun p hp => by rw [getLsbD_laneByte _ hp, getLsbD_laneByte _ hp, h _ (by omega)]

/-- A byte is the byte of its own lanes. -/
theorem laneByte_getLsbD (v : Byte) : (laneByte fun j => v.getLsbD (7 - j)) = v :=
  BitVec.eq_of_getLsbD_eq fun p hp => by rw [getLsbD_laneByte _ hp, show 7 - (7 - p) = p by omega]

theorem length_clearPadding (w : Nat) (b : List Byte) : (clearPadding w b).length = b.length := by simp [clearPadding]

theorem clearPadding_getD (w : Nat) {b : List Byte} {i : Nat} (hi : i < b.length) : (clearPadding w b).getD i 0#8 =
    laneByte fun j => decide (8 * (i % ceil8 w) + j < w) && (b.getD i 0#8).getLsbD (7 - j) := by
  simp [clearPadding, hi]

theorem clearPadding_of_dvd {w h : Nat} {b : List Byte} (hw : 0 < w) (hb : b.length = h * ceil8 w) (hdvd : w % 8 = 0) :
    clearPadding w b = b := by
  have hrb : 0 < ceil8 w := Nat.zero_lt_of_lt (div8_lt_ceil8 hw)
  refine eq_of_getD_row_col (d := 0#8) hrb ((length_clearPadding w b).trans hb) hb fun r k hr hk => ?_
  rw [clearPadding_getD w (hb ▸ index_lt hr hk), mod_row_col hk]
  refine (laneByte_congr fun j hj => ?_).trans (laneByte_getLsbD _)
  rw [ceil8_eq] at hk
  rw [decide_eq_true (by omega), Bool.true_and]

theorem pack_unpack {b : List Byte} {w h : Nat} {u : List (List Byte)} (hu : Codec.unpack b w h = .ok u) :
    Codec.pack u w h = .ok (clearPadding w b) := by
  obtain ⟨hw, hh, hb, rfl⟩ := unpack_ok hu
  have hu := rectangular_map_range (unpackedSample b w) w h
  obtain ⟨hlen, -⟩ := rectangular_iff.mp hu
  rw [pack_eq_ok hw hh hu]
  refine congrArg Except.ok (eq_of_getD_row_col (d := 0#8) (h := h) (Nat.zero_lt_of_lt (div8_lt_ceil8 hw)) ?_
    ((length_clearPadding w b).trans hb) fun r k hr hk => ?_)
  · rw [length_flatMap_packRow, hlen]
  rw [flatMap_packRow_getD hk (hr.trans_eq hlen.symm), clearPadding_getD w (hb ▸ index_lt hr hk), mod_row_col hk, packByte]
  refine laneByte_congr fun j hj => ?_
  by_cases hc : 8 * k + j < w
  · have hbit : bitPos (8 * k + j) = 7 - j := by unfold bitPos lane; omega
    rw [map_range_getD_getD _ hr hc, unpackedSample, bin_white, hbit, show (8 * k + j) / 8 = k by omega]
  · rw [decide_eq_false hc, Bool.false_and, Bool.false_and]

/-- Settles O59: the bits of a byte are the bits of its samples, but for those without a column, of which there are none
when `W` is a multiple of 8. -/
theorem packOfUnpackClearsPadding : Obligations.PackOfUnpackClearsPadding := by
  unfold Obligations.PackOfUnpackClearsPadding
  intro b w h u hu
  obtain ⟨hw, -, hb, -⟩ := unpack_ok hu
  exact ⟨pack_unpack hu, fun hdvd => clearPadding_of_dvd hw hb hdvd ▸ pack_unpack hu⟩

/-! ### The image of a grid -/

theorem length_rowEntries (row : List Byte) : (rowEntries row).length = row.length := by
  induction row using rowEntries.induct with
  | case1 => rfl
  | case2 p => rfl
  | case3 p q ps ih => exact congrArg Nat.succ ih

/-- `eol` on the last entry of a row, and the samples in order. -/
theorem rowEntries_getD {row : List Byte} {c : Nat} (hc : c < row.length) :
    (rowEntries row).getD c 0#9 = mkEntry (decide (c + 1 = row.length)) (row.getD c 0#8) := by
  induction row using rowEntries.induct generalizing c with
  | case1 => cases hc
  | case2 p =>
    obtain rfl : c = 0 := Nat.lt_one_iff.mp hc
    rfl
  | case3 p q ps ih =>
    cases c with
    | zero => rfl
    | succ c =>
      rw [rowEntries, List.getD_cons_succ, ih (Nat.lt_of_succ_lt_succ hc)]
      simp

theorem rowEntries_concat (row : List Byte) (p : Byte) :
    rowEntries (row ++ [p]) = row.map (mkEntry false) ++ [mkEntry true p] := by
  induction row with
  | nil => rfl
  | cons q row ih =>
    cases row with
    | nil => rfl
    | cons q' row => exact congrArg (mkEntry false q :: ·) ih

section Image

variable {g : List (List Byte)} {w h : Nat} (hg : rectangular g w h = true)
include hg

theorem length_gridImage : (gridImage g).length = h * w := by
  obtain ⟨rfl, hrow⟩ := rectangular_iff.mp hg
  rw [gridImage, List.length_flatMap, List.map_congr_left fun row h => (length_rowEntries row).trans (hrow row h)]
  simp

theorem gridImage_getD {r c : Nat} (hr : r < h) (hc : c < w) :
    (gridImage g).getD (r * w + c) 0#9 = mkEntry (decide (c + 1 = w)) ((g.getD r []).getD c 0#8) := by
  obtain ⟨rfl, hrow⟩ := rectangular_iff.mp hg
  have hlen := hrow _ (List.getElem_mem hr)
  rw [gridImage, flatMap_getD_row_col (fun row h => (length_rowEntries row).trans (hrow row h)) hr hc,
    rowEntries_getD (hlen ▸ hc), hlen, List.getD_eq_getElem _ _ hr]

end Image

/-! ### Cutting a sequence of entries into rows -/

theorem gridImage_cons (row : List Byte) (g : List (List Byte)) : gridImage (row :: g) = rowEntries row ++ gridImage g :=
  List.flatMap_cons

/-- What is cut with nothing left over is the image of its rows. -/
theorem gridImage_cutRowsFrom {cur : List Byte} {es : List Entry} (h : (cutRowsFrom cur es).2 = []) :
    gridImage (cutRowsFrom cur es).1 = cur.map (mkEntry false) ++ es := by
  induction es generalizing cur with
  | nil => obtain rfl : cur = [] := h; rfl
  | cons e es ih =>
    have heta := mkEntry_eta e
    rw [cutRowsFrom] at h ⊢
    split at h
    next heol =>
      rw [heol] at heta
      rw [if_pos heol, gridImage_cons, rowEntries_concat, heta, ih h]
      simp
    next heol =>
      rw [Bool.eq_false_iff.mpr heol] at heta
      rw [if_neg heol, ih h, List.map_append, List.map_singleton, heta, List.append_assoc]
      rfl

theorem gridImage_cutRows {es : List Entry} (h : (cutRows es).2 = []) : gridImage (cutRows es).1 = es :=
  gridImage_cutRowsFrom h

/-- The entries of a row, which ends at its `eol`, are cut off as that row. -/
theorem cutRowsFrom_rowEntries {row : List Byte} (hrow : row ≠ []) (cur : List Byte) (es : List Entry) :
    cutRowsFrom cur (rowEntries row ++ es) = ((cur ++ row) :: (cutRows es).1, (cutRows es).2) := by
  induction row using rowEntries.induct generalizing cur with
  | case1 => exact absurd rfl hrow
  | case2 p => simp [rowEntries, cutRowsFrom, cutRows]
  | case3 p q ps ih =>
    have rest := ih (List.cons_ne_nil q ps) (cur ++ [p])
    rw [rowEntries, List.cons_append, cutRowsFrom, if_neg (by simp), entrySample_mkEntry, rest, List.append_assoc]
    rfl

/-- The image of a grid is cut into its rows with nothing left over. -/
theorem cutRows_gridImage {g : List (List Byte)} (hg : ∀ row ∈ g, row ≠ []) : cutRows (gridImage g) = (g, []) := by
  induction g with
  | nil => rfl
  | cons row g ih =>
    obtain ⟨hrow, hg⟩ := List.forall_mem_cons.mp hg
    rw [gridImage_cons, cutRows, cutRowsFrom_rowEntries hrow, ih hg]
    rfl

theorem row_ne_nil_of_rectangular {g : List (List Byte)} {w h : Nat} (hw : 0 < w) (hg : rectangular g w h = true) :
    ∀ row ∈ g, row ≠ [] := fun row hrow =>
  List.ne_nil_of_length_pos (((rectangular_iff.mp hg).2 row hrow).symm ▸ hw)

/-- A sequence of entries with `eol` at the last column of each row is the image of the table of its samples. -/
theorem eq_gridImage_of_eol {es : List Entry} {w h : Nat} (hw : 0 < w) (hlen : es.length = h * w)
    (heol : ∀ i < es.length, entryEol (es.getD i 0#9) = decide (i % w = w - 1)) :
    es = gridImage ((List.range h).map fun r => (List.range w).map fun c => entrySample (es.getD (r * w + c) 0#9)) := by
  have hg := rectangular_map_range (fun r c => entrySample (es.getD (r * w + c) 0#9)) w h
  refine eq_of_getD_row_col (d := 0#9) hw hlen (length_gridImage hg) fun r c hr hc => ?_
  have hlast : (c = w - 1) = (c + 1 = w) := propext (by omega)
  have heol := heol _ (hlen ▸ index_lt hr hc)
  rw [gridImage_getD hg hr hc, map_range_getD_getD (fun r c => entrySample (es.getD (r * w + c) 0#9)) hr hc]
  simp only [mod_row_col hc, hlast] at heol
  rw [← heol, mkEntry_eta]

/-- Settles O60: what is cut into a rectangular grid is that grid's image, whose marks are at the last columns; and a
sequence marked so is the image of a grid, which is cut into its rows again. -/
theorem cutRowsMatchTheRowCheck : Obligations.CutRowsMatchTheRowCheck := by
  unfold Obligations.CutRowsMatchTheRowCheck
  refine fun es w h hw => ⟨fun ⟨hrest, hg⟩ => ?cut, fun ⟨hlen, heol⟩ => ?marked⟩
  case cut =>
    have hlen := length_gridImage hg
    rw [gridImage_cutRows hrest] at hlen
    refine ⟨hlen.trans (Nat.mul_comm h w), fun i hi => ?_⟩
    have hc := Nat.mod_lt i hw
    have heol := congrArg entryEol (gridImage_getD hg (row_lt (hlen ▸ hi)) hc)
    rw [gridImage_cutRows hrest, row_col_eq, entryEol_mkEntry] at heol
    exact heol.trans (decide_eq_decide.mpr (by omega))
  case marked =>
    have hes := eq_gridImage_of_eol hw (hlen.trans (Nat.mul_comm w h)) heol
    have hg := rectangular_map_range (fun r c => entrySample (es.getD (r * w + c) 0#9)) w h
    rw [hes, cutRows_gridImage (row_ne_nil_of_rectangular hw hg)]
    exact ⟨rfl, hg⟩

end Sys2Proof.Machine
end

section
/-! PROOFS. Whole operations with nothing else scheduled (43_codec_laws.md section 1): the block's turns one after another,
what they keep, how far they come on known inputs, and how they end. -/

namespace Sys2Proof.Machine

/-! ### The known elements at the front of a memory -/

theorem mapM_eq_some_iff {α β : Type} {f : α → Option β} {l : List α} {es : List β} :
    l.mapM f = some es ↔ l.map f = es.map some := by
  induction l generalizing es with
  | nil => cases es <;> simp
  | cons a l ih => cases es <;> simp [List.mapM_cons, Option.bind_eq_some_iff, ih]

theorem elements_known_iff {n : Nat} {m : Memory n} {k : Nat} {es : List (BitVec n)} :
    Memory.prefix? m k = some es ↔ es.length = k ∧ ∀ i < k, Memory.read? m i = some (es.getD i 0#n) := by
  rw [Memory.prefix?, mapM_eq_some_iff]
  constructor
  · intro h
    have hlen : es.length = k := by simpa using (congrArg List.length h).symm
    refine ⟨hlen, fun i hi => ?_⟩
    have := congrArg (·[i]?) h
    simpa [hi, hlen] using this
  · rintro ⟨rfl, h⟩
    refine List.ext_getElem (by simp) fun i hi _ => ?_
    have hi : i < es.length := by simpa using hi
    simp [h i hi, hi]

/-! ### Turns one after another -/

theorem blockTurn_pending (s : State) : (blockTurn s).pending = s.pending := by
  rw [blockTurn]
  split
  · exact elementStep_pending s
  · rfl

theorem run_succ {s t : State} (h : step s = .next t) (n : Nat) :
    Host.Core.run core (n + 1) s = Host.Core.run core n t := by
  have hstep : core.step s = .next t := h
  simp only [Host.Core.run, hstep]

/-- With nothing scheduled the machine runs the block's turns. -/
theorem run_eq_iterate {s : State} (hs : s.pending = []) (n : Nat) :
    Host.Core.run core n s = .next (blockTurn^[n] s) := by
  induction n generalizing s with
  | zero => rfl
  | succ n ih =>
    rw [run_succ (step_of_pending_nil hs)]
    exact ih ((blockTurn_pending s).trans hs)

theorem blockTurn_inv {s : State} (inv : s.Inv) : (blockTurn s).Inv := by
  rw [blockTurn]
  split
  next busy => exact elementStep_inv inv busy
  next => exact inv

theorem iterate_inv {s : State} (inv : s.Inv) (n : Nat) : (blockTurn^[n] s).Inv := by
  induction n with
  | zero => exact inv
  | succ n ih => rw [Function.iterate_succ_apply']; exact blockTurn_inv ih

/-- A running operation comes one entry further at each turn or ends, so it ends within the entries left. -/
theorem iterate_completes {s : State} (inv : s.Inv) (busy : s.status.busy = true) {k : Nat}
    (hk : s.width * s.height - s.gi ≤ k) : ∃ n ≤ s.width * s.height - s.gi,
      (blockTurn^[n] s).status.busy = false ∧ (blockTurn^[n] s).status.done = true := by
  have hlt : s.gi < s.width * s.height := (inv.gi_lt busy).trans_eq (Nat.mul_comm ..)
  induction k generalizing s with
  | zero => omega
  | succ k ih =>
    have hturn := blockTurn_busy busy
    obtain ⟨hst, hgi, hlt'⟩ | ⟨hst, -⟩ | ⟨hst, -⟩ := elementStep_progress inv busy
    · obtain ⟨n, hn, hend⟩ := ih (elementStep_inv inv busy) (hst ▸ busy)
        (by rw [elementStep_width, elementStep_height]; omega) (by rw [elementStep_width, elementStep_height]; omega)
      rw [elementStep_width, elementStep_height] at hn
      rw [← hturn, ← Function.iterate_succ_apply] at hend
      exact ⟨n + 1, by omega, hend⟩
    · exact ⟨1, by omega, by simp [hturn, hst]⟩
    · exact ⟨1, by omega, by simp [hturn, hst]⟩

/-- Settles O35: with nothing scheduled the run is the block's turns, which `iterate_completes` bounds. -/
theorem everyOperationCompletes : Obligations.EveryOperationCompletes := by
  unfold Obligations.EveryOperationCompletes
  intro s inv busy pending
  obtain ⟨n, hn, hend⟩ := iterate_completes inv busy le_rfl
  exact ⟨n, _, hn, run_eq_iterate pending n, hend⟩

/-! ### What an element step on known inputs keeps -/

/-- What the running operation reads before entry `m` is known, and passes the row check where there is one (R113). -/
def State.KnownTo (s : State) (m : Nat) : Prop :=
  match s.opl with
  | .pack => ∀ i < m, ∃ e, Memory.read? s.gmem i = some e ∧ entryEol e = decide (i % s.width + 1 = s.width)
  | .unpack => ∀ k < s.blen, ∃ b, Memory.read? s.bmem k = some b

theorem State.knownTo_pack {s : State} (pack : s.opl = .pack) {m : Nat} : s.KnownTo m ↔
    ∀ i < m, ∃ e, Memory.read? s.gmem i = some e ∧ entryEol e = decide (i % s.width + 1 = s.width) := by
  rw [State.KnownTo, pack]

theorem State.knownTo_unpack {s : State} (unpack : s.opl = .unpack) {m : Nat} : s.KnownTo m ↔
    ∀ k < s.blen, ∃ b, Memory.read? s.bmem k = some b := by
  rw [State.KnownTo, unpack]

/-- While a pixel is named, the grid index's column is the cursor's. -/
theorem State.Inv.gi_mod {s : State} (inv : s.Inv) (busy : s.status.busy = true) : s.gi % s.width = s.c := by
  obtain ⟨-, col, grid, -⟩ := inv.cursor busy
  rw [grid, mod_row_col col]

section Known

variable {s : State} (inv : s.Inv) (busy : s.status.busy = true)
include inv busy

/-- PACK's element step on a known entry with the right mark. -/
theorem packStep_knownTo {m : Nat} (pack : s.opl = .pack) (known : s.KnownTo m) (hm : s.gi < m) :
    ∃ e, Memory.read? s.gmem s.gi = some e ∧ packStep s = packPixel e s := by
  obtain ⟨e, he, right⟩ := (State.knownTo_pack pack).mp known s.gi hm
  rw [inv.gi_mod busy] at right
  exact ⟨e, he, (packStep_known he).trans (if_neg (not_not_intro right))⟩

/-- UNPACK's element step on a known byte, read or held. -/
theorem unpackStep_knownTo {m : Nat} (unpack : s.opl = .unpack) (known : s.KnownTo m) :
    ∃ b, Memory.read? s.bmem s.bi = some b ∧ unpackStep s = unpackPixel b s := by
  obtain ⟨input, held, -⟩ := inv.unpack busy unpack
  obtain ⟨b, hb⟩ := (State.knownTo_unpack unpack).mp known s.bi (input ▸ inv.bi_lt busy)
  by_cases hl : lane s.c = 0
  · exact ⟨b, hb, unpackStep_known hl hb⟩
  · exact ⟨b, hb, held hl b hb ▸ unpackStep_held hl⟩

/-- On known inputs an element step draws nothing and does its operation's pixel. -/
theorem elementStep_pixelStep {m : Nat} (known : s.KnownTo m) (hm : s.gi < m) : PixelStep s.opl s (elementStep s) := by
  cases hop : s.opl with
  | pack =>
    obtain ⟨e, -, h⟩ := packStep_knownTo inv busy hop known hm
    rw [elementStep_pack hop, h]
    exact packPixel_pixelStep e s
  | unpack =>
    obtain ⟨b, -, h⟩ := unpackStep_knownTo inv busy hop known
    rw [elementStep_unpack hop, h]
    exact unpackPixel_pixelStep b s

end Known

/-- From `s` to `t` the input memory of `o` is unchanged, and so is the output memory from the index on that `t` has
reached. -/
def OutputKept (o : Operation) (s t : State) : Prop :=
  match o with
  | .pack => t.gmem = s.gmem ∧ ∀ k, t.bi ≤ k → Memory.read? t.bmem k = Memory.read? s.bmem k
  | .unpack => t.bmem = s.bmem ∧ ∀ k, t.gi ≤ k → Memory.read? t.gmem k = Memory.read? s.gmem k

/-- What the element steps of a running operation on known inputs keep from `s` to `t`. -/
structure Kept (s t : State) : Prop where
  cfg : t.cfg = s.cfg
  opl : t.opl = s.opl
  pending : t.pending = s.pending
  replies : t.replies = s.replies
  draws : t.draws = s.draws
  operand : ∀ n, n ≠ outReg s.opl → t.x n = s.x n
  index : s.outIndex s.opl ≤ t.outIndex s.opl
  output : OutputKept s.opl s t

theorem OutputKept.refl (o : Operation) (s : State) : OutputKept o s s := by
  cases o <;> exact ⟨rfl, fun _ _ => rfl⟩

theorem OutputKept.trans {o : Operation} {s t u : State} (h : OutputKept o s t) (h' : OutputKept o t u)
    (index : t.outIndex o ≤ u.outIndex o) : OutputKept o s u := by
  cases o <;>
    exact ⟨h'.1.trans h.1, fun k hk => (h'.2 k hk).trans (h.2 k (Nat.le_trans index hk))⟩

theorem Kept.refl (s : State) : Kept s s :=
  ⟨rfl, rfl, rfl, rfl, rfl, fun _ _ => rfl, le_rfl, .refl _ s⟩

theorem Kept.trans {s t u : State} (h : Kept s t) (h' : Kept t u) : Kept s u := by
  have operand := h'.operand
  have index := h'.index
  have output := h'.output
  rw [h.opl] at operand index output
  exact ⟨h'.cfg.trans h.cfg, h'.opl.trans h.opl, h'.pending.trans h.pending, h'.replies.trans h.replies,
    h'.draws.trans h.draws, fun n hn => (operand n hn).trans (h.operand n hn), h.index.trans index,
    h.output.trans output index⟩

theorem Kept.width {s t : State} (h : Kept s t) : t.width = s.width := h.operand .width (by cases s.opl <;> decide)

theorem Kept.height {s t : State} (h : Kept s t) : t.height = s.height := h.operand .height (by cases s.opl <;> decide)

theorem Kept.rowBytes {s t : State} (h : Kept s t) : t.rowBytes = s.rowBytes := congrArg ceil8 h.width

theorem Kept.glen {s t : State} (h : Kept s t) (pack : s.opl = .pack) : t.glen = s.glen :=
  h.operand .glen (by rw [pack]; decide)

theorem Kept.blen {s t : State} (h : Kept s t) (unpack : s.opl = .unpack) : t.blen = s.blen :=
  h.operand .blen (by rw [unpack]; decide)

theorem Kept.pack_output {s t : State} (h : Kept s t) (pack : s.opl = .pack) :
    t.gmem = s.gmem ∧ ∀ k, t.bi ≤ k → Memory.read? t.bmem k = Memory.read? s.bmem k := by
  have output := h.output
  rwa [pack] at output

theorem Kept.unpack_output {s t : State} (h : Kept s t) (unpack : s.opl = .unpack) :
    t.bmem = s.bmem ∧ ∀ k, t.gi ≤ k → Memory.read? t.gmem k = Memory.read? s.gmem k := by
  have output := h.output
  rwa [unpack] at output

theorem Kept.knownTo {s t : State} (h : Kept s t) {m : Nat} (known : s.KnownTo m) : t.KnownTo m := by
  cases hop : s.opl with
  | pack =>
    rw [State.knownTo_pack (h.opl.trans hop), h.width, (h.pack_output hop).1]
    exact (State.knownTo_pack hop).mp known
  | unpack =>
    rw [State.knownTo_unpack (h.opl.trans hop), h.blen hop, (h.unpack_output hop).1]
    exact (State.knownTo_unpack hop).mp known

section Kept

variable {s : State} (inv : s.Inv) (busy : s.status.busy = true)
include inv busy

theorem packPixel_outputKept (e : Entry) : OutputKept .pack s (packPixel e s) := by
  have hbi := (packPixel_pixelStep e s).bi_eq inv busy
  obtain ⟨_, rfl, hbmem, -, -, -, -, -, -, -, -, hgmem, -⟩ := packPixel_cases e s
  refine ⟨hgmem, fun k hk => ?_⟩
  rw [hbmem]
  split at hbi
  next ends => rw [if_pos ends, Memory.read?_write_other _ _ (by omega)]
  next inside => rw [if_neg inside]

theorem unpackPixel_outputKept (cur : Byte) : OutputKept .unpack s (unpackPixel cur s) := by
  have hgi := (unpackPixel_pixelStep cur s).gi_eq inv busy
  have hgmem := unpackPixel_gmem inv busy cur
  obtain ⟨_, rfl, -, -, -, -, -, -, -, -, -, hbmem, -⟩ := unpackPixel_cases cur s
  exact ⟨hbmem, fun k hk => (hgmem k).trans (if_neg (by omega))⟩

theorem PixelStep.outIndex_le {o : Operation} {t : State} (h : PixelStep o s t) : s.outIndex o ≤ t.outIndex o := by
  cases o with
  | pack =>
    have hbi := h.bi_eq inv busy
    show s.bi ≤ t.bi
    split at hbi <;> omega
  | unpack =>
    have hgi := h.gi_eq inv busy
    show s.gi ≤ t.gi
    omega

variable {m : Nat} (known : s.KnownTo m) (hm : s.gi < m)
include known hm

theorem elementStep_outputKept : OutputKept s.opl s (elementStep s) := by
  cases hop : s.opl with
  | pack =>
    obtain ⟨e, -, h⟩ := packStep_knownTo inv busy hop known hm
    rw [elementStep_pack hop, h]
    exact packPixel_outputKept inv busy e
  | unpack =>
    obtain ⟨b, -, h⟩ := unpackStep_knownTo inv busy hop known
    rw [elementStep_unpack hop, h]
    exact unpackPixel_outputKept inv busy b

theorem elementStep_kept : Kept s (elementStep s) := by
  have h := elementStep_pixelStep inv busy known hm
  exact ⟨h.cfg, h.opl, h.pending, h.replies, h.draws, h.operand, h.outIndex_le inv busy,
    elementStep_outputKept inv busy known hm⟩

end Kept

/-! ### How far an operation comes, and how it ends -/

section Run

variable {s : State} (inv : s.Inv) (busy : s.status.busy = true) {m : Nat} (known : s.KnownTo m)
include inv busy known

/-- While entries are left, `n` turns on known inputs come `n` entries further. -/
theorem iterate_running {n : Nat} (hn : s.gi + n < s.width * s.height) (hm : s.gi + n ≤ m) :
    (blockTurn^[n] s).status = s.status ∧ (blockTurn^[n] s).gi = s.gi + n ∧ Kept s (blockTurn^[n] s) := by
  induction n with
  | zero => exact ⟨rfl, rfl, .refl s⟩
  | succ n ih =>
    obtain ⟨hst, hgi, kept⟩ := ih (by omega) (by omega)
    have inv' := iterate_inv inv n
    rw [Function.iterate_succ_apply']
    generalize blockTurn^[n] s = t at *
    have busy' : t.status.busy = true := hst ▸ busy
    have known' := kept.knownTo known
    have step := elementStep_pixelStep inv' busy' known' (by omega)
    have hgi' : (elementStep t).gi = s.gi + (n + 1) := by rw [step.gi_eq inv' busy', hgi, Nat.add_assoc]
    rw [blockTurn_busy busy']
    refine ⟨?_, hgi', kept.trans (elementStep_kept inv' busy' known' (by omega))⟩
    obtain ⟨-, -, -, hst'⟩ | ⟨-, -, -, -, hst'⟩ | ⟨-, hend, -⟩ := step.cursor_cases inv' busy'
    · exact hst'.trans hst
    · exact hst'.trans hst
    · rw [hgi', kept.width, kept.height] at hend
      omega

omit inv busy known in
/-- The state in which an operation has completed on known inputs: both indices are the counts of the whole grid, and the
result is packed or unpacked. -/
structure Completed (s u : State) : Prop where
  status : u.status = ⟨false, true, .noError⟩
  gi : u.gi = s.entryCount
  bi : u.bi = s.byteCount
  kept : Kept s u
  packed : s.opl = .pack → u.blen = s.byteCount ∧ ∀ r k, r < s.height → k < s.rowBytes → packedByteOk u r k
  unpacked : s.opl = .unpack → u.glen = s.entryCount ∧ ∀ r c, r < s.height → c < s.width → unpackedEntryOk u r c

/-- On known inputs the operation completes with the last entry. -/
theorem iterate_completed (hm : s.width * s.height ≤ m) : Completed s (blockTurn^[s.width * s.height - s.gi] s) := by
  have hlt : s.gi < s.width * s.height := (inv.gi_lt busy).trans_eq (Nat.mul_comm ..)
  obtain ⟨n, hn⟩ : ∃ n, s.width * s.height - s.gi = n + 1 := ⟨s.width * s.height - s.gi - 1, by omega⟩
  obtain ⟨hst, hgi, kept⟩ := iterate_running inv busy known (n := n) (by omega) (by omega)
  have inv' := iterate_inv inv n
  rw [hn, Function.iterate_succ_apply']
  generalize blockTurn^[n] s = t at *
  have busy' : t.status.busy = true := hst ▸ busy
  have known' := kept.knownTo known
  have step := elementStep_pixelStep inv' busy' known' (by omega)
  rw [blockTurn_busy busy']
  have hbytes : t.byteCount = s.byteCount := by rw [State.byteCount, kept.height, kept.rowBytes, State.byteCount]
  have hentries : t.entryCount = s.entryCount := by rw [State.entryCount, kept.width, kept.height, State.entryCount]
  have kept' := kept.trans (elementStep_kept inv' busy' known' (by omega))
  obtain ⟨done, hbi⟩ : (elementStep t).status = ⟨false, true, .noError⟩ ∧ (elementStep t).bi = t.byteCount := by
    have last (hst' : (elementStep t).status = t.status) : t.gi + 1 < s.width * s.height := by
      rw [← kept.width, ← kept.height]
      exact (elementStep_goesOn inv' busy' (hst' ▸ busy')).2
    obtain ⟨-, -, -, hst'⟩ | ⟨-, -, -, -, hst'⟩ | ⟨done, -, hbi, -⟩ := step.cursor_cases inv' busy'
    · have := last hst'; omega
    · have := last hst'; omega
    · exact ⟨done, hbi⟩
  refine ⟨done, ?_, hbi.trans hbytes, kept', fun pack => ?_, fun unpack => ?_⟩
  · rw [step.gi_eq inv' busy', State.entryCount]
    omega
  · rw [← hbytes, ← kept.height, ← kept.rowBytes]
    exact packStep_completes inv' busy' done (kept.opl.trans pack)
  · rw [← hentries, ← kept.height, ← kept.width]
    exact unpackStep_completes inv' busy' done (kept.opl.trans unpack)

end Run

end Sys2Proof.Machine
end

section
/-! PROOFS. The two operations against the pure functions (43_codec_laws.md), with nothing else scheduled: what PACK and
UNPACK leave on inputs they accept, where PACK stops at a wrong mark, and what the results depend on. -/

namespace Sys2Proof.Machine

/-! ### An operation from its start -/

theorem started_run {s : State} (pending : s.pending = []) (o : Operation) (n : Nat) :
    Host.Core.run core n (s.started o) = .next (blockTurn^[n] (s.started o)) :=
  run_eq_iterate (s := s.started o) pending n

section Start

variable {s : State} {o : Operation} (inv : s.Inv) (check : startCheck o s = none) {m : Nat}
  (known : (s.started o).KnownTo m)
include inv check known

/-- A started operation on known inputs is BUSY after fewer element steps than entries. -/
theorem started_running {n : Nat} (hn : n < s.width * s.height) (hm : n ≤ m) :
    (blockTurn^[n] (s.started o)).status = ⟨true, false, .noError⟩ ∧ (blockTurn^[n] (s.started o)).gi = n ∧
      Kept (s.started o) (blockTurn^[n] (s.started o)) := by
  have hgi : (s.started o).gi + n = n := Nat.zero_add n
  have hn' : (s.started o).gi + n < (s.started o).width * (s.started o).height := by rw [hgi]; exact hn
  obtain ⟨hst, hgi', kept⟩ := iterate_running (State.started_inv inv check) rfl known hn' (by rwa [hgi])
  exact ⟨hst, hgi'.trans hgi, kept⟩

/-- It completes with the last entry. -/
theorem started_completed (hm : s.width * s.height ≤ m) :
    Completed (s.started o) (blockTurn^[s.width * s.height] (s.started o)) :=
  iterate_completed (State.started_inv inv check) rfl known hm

end Start

theorem exec_pack_start (g : BitVec 30) {s : State} (idle : s.status.busy = false) (check : startCheck .pack s = none) :
    exec (.pack g) s = .next (s.started .pack) := by
  rw [exec_pack, command_start .pack idle check]

theorem exec_unpack_start (g : BitVec 30) {s : State} (idle : s.status.busy = false) (check : startCheck .unpack s = none) :
    exec (.unpack g) s = .next (s.started .unpack) := by
  rw [exec_unpack, command_start .unpack idle check]

/-! ### PACK of a grid -/

section Pack

variable {s : State} {rows : List (List Byte)} (hg : rectangular rows s.width s.height = true)
  (hes : Memory.prefix? s.gmem s.glen = some (gridImage rows))
include hg hes

theorem glen_of_gridImage : s.glen = s.entryCount := by
  obtain ⟨hlen, -⟩ := elements_known_iff.mp hes
  rw [← hlen, length_gridImage hg, State.entryCount, Nat.mul_comm]

/-- The entry of each pixel, where GMEM holds the image of a grid. -/
theorem read_gridImage {r c : Nat} (hr : r < s.height) (hc : c < s.width) : Memory.read? s.gmem (r * s.width + c) =
    some (mkEntry (decide (c + 1 = s.width)) ((rows.getD r []).getD c 0#8)) := by
  obtain ⟨hlen, hread⟩ := elements_known_iff.mp hes
  rw [hread _ (by rw [← hlen, length_gridImage hg]; exact index_lt hr hc), gridImage_getD hg hr hc]

theorem started_knownTo_of_gridImage (hw : 0 < s.width) : (s.started .pack).KnownTo (s.width * s.height) := by
  refine (State.knownTo_pack rfl).mpr fun i hi => ?_
  have hread := read_gridImage hg hes (row_lt (Nat.mul_comm s.width s.height ▸ hi)) (Nat.mod_lt i hw)
  rw [row_col_eq] at hread
  exact ⟨_, hread, entryEol_mkEntry _ _⟩

/-- The bytes of a completed PACK of a grid are those of the pure function. -/
theorem packed_bytes_known {u : State} (done : Completed (s.started .pack) u) :
    Memory.prefix? u.bmem u.blen = some (rows.flatMap (packRow s.width)) := by
  obtain ⟨hlen, -⟩ := rectangular_iff.mp hg
  obtain ⟨hblen, packed⟩ := done.packed rfl
  obtain ⟨hgmem, -⟩ := done.kept.pack_output rfl
  have hcount : u.blen = s.height * ceil8 s.width := hblen
  rw [hcount]
  refine elements_known_iff.mpr ⟨by rw [length_flatMap_packRow, hlen], fun i hi => ?_⟩
  have hr := row_lt hi
  have hk : i % ceil8 s.width < ceil8 s.width := Nat.mod_lt _ (Nat.pos_of_lt_mul_left hi)
  rw [← row_col_eq i (ceil8 s.width), flatMap_packRow_getD hk (hlen ▸ hr)]
  refine (packed _ _ hr hk).eq_packByte done.kept.width fun c hc _ => ?_
  rw [hgmem]
  exact ⟨_, read_gridImage hg hes hr hc, entrySample_mkEntry _ _⟩

end Pack

/-- Settles O32: what is cut into a grid is its image, so every mark is right, the operation completes, and each byte it
leaves is the pure function's. -/
theorem packOperationComputesPack : Obligations.PackOperationComputesPack := by
  unfold Obligations.PackOperationComputesPack
  intro s g es p inv idle pending hes hrest hp
  obtain ⟨hw, hh, hg, rfl⟩ := pack_ok hp
  rw [← gridImage_cutRows hrest] at hes
  have check : startCheck .pack s = none := packStartCheck_none.mpr ⟨hw, hh, glen_of_gridImage hg hes⟩
  have known := started_knownTo_of_gridImage hg hes hw
  have done := started_completed inv check known le_rfl
  obtain ⟨hblen, -⟩ := done.packed rfl
  obtain ⟨hgmem, hbmem⟩ := done.kept.pack_output rfl
  refine ⟨_, _, exec_pack_start g idle check, started_run pending .pack _, fun n hn =>
      ⟨_, started_run pending .pack n, (started_running inv check known hn hn.le).1⟩, done.status,
    hblen.trans (byteCount_eq s), packed_bytes_known hg hes done, fun k hk => hbmem k ?_, hgmem,
    done.kept.glen rfl, done.kept.width, done.kept.height, done.kept.cfg, done.kept.pending.trans pending,
    done.kept.replies, done.kept.draws⟩
  · rw [done.bi, ← hblen]; exact hk

/-! ### UNPACK of a byte sequence -/

section Unpack

variable {s : State} {b : List Byte} (hb : Memory.prefix? s.bmem s.blen = some b)
include hb

theorem started_knownTo_of_bytes (m : Nat) : (s.started .unpack).KnownTo m :=
  (State.knownTo_unpack rfl).mpr fun k hk => ⟨_, (elements_known_iff.mp hb).2 k hk⟩

/-- The entries of a completed UNPACK are the image of the pure function's grid. -/
theorem unpacked_entries_known (hlen : b.length = s.byteCount) {u : State} (done : Completed (s.started .unpack) u) :
    Memory.prefix? u.gmem u.glen =
      some (gridImage ((List.range s.height).map fun r => (List.range s.width).map fun c => unpackedSample b s.width r c)) := by
  obtain ⟨hblen, hread⟩ := elements_known_iff.mp hb
  obtain ⟨hglen, unpacked⟩ := done.unpacked rfl
  obtain ⟨hbmem, -⟩ := done.kept.unpack_output rfl
  have hg := rectangular_map_range (unpackedSample b s.width) s.width s.height
  have hcount : u.glen = s.height * s.width := hglen.trans (Nat.mul_comm s.width s.height)
  rw [hcount]
  refine elements_known_iff.mpr ⟨length_gridImage hg, fun i hi => ?_⟩
  have hr := row_lt hi
  have hc : i % s.width < s.width := Nat.mod_lt _ (Nat.pos_of_lt_mul_left hi)
  obtain ⟨e, he, heol, -, hsample⟩ := unpacked _ _ hr hc
  have hbyte : Memory.read? u.bmem (i / s.width * u.rowBytes + i % s.width / 8) =
      some (b.getD (i / s.width * ceil8 s.width + i % s.width / 8) 0#8) := by
    rw [hbmem, done.kept.rowBytes]
    exact hread _ (hblen ▸ hlen ▸ index_lt hr (div8_lt_ceil8 hc))
  rw [done.kept.width] at he heol
  rw [← row_col_eq i s.width, gridImage_getD hg hr hc, map_range_getD_getD _ hr hc, unpackedSample, ← hsample _ hbyte]
  refine he.trans (congrArg some ?_)
  rw [← mkEntry_eta e, heol, entrySample_mkEntry]
  rfl

end Unpack

/-- Settles O33: every byte is known, so the operation draws nothing and completes, and each entry it leaves is the pure
function's. -/
theorem unpackOperationComputesUnpack : Obligations.UnpackOperationComputesUnpack := by
  unfold Obligations.UnpackOperationComputesUnpack
  intro s g b rows inv idle pending hb hu
  obtain ⟨hw, hh, hlen, rfl⟩ := unpack_ok hu
  have hblen := (elements_known_iff.mp hb).1
  have check : startCheck .unpack s = none := unpackStartCheck_none.mpr ⟨hw, hh, hblen.symm.trans hlen⟩
  have known := started_knownTo_of_bytes hb (s.width * s.height)
  have done := started_completed inv check known le_rfl
  obtain ⟨hglen, -⟩ := done.unpacked rfl
  obtain ⟨hbmem, hgmem⟩ := done.kept.unpack_output rfl
  refine ⟨_, _, exec_unpack_start g idle check, started_run pending .unpack _, fun n hn =>
      ⟨_, started_run pending .unpack n, (started_running inv check known hn hn.le).1⟩, done.status,
    hglen, unpacked_entries_known hb hlen done, fun k hk => hgmem k ?_, hbmem,
    done.kept.blen rfl, done.kept.width, done.kept.height, done.kept.cfg, done.kept.pending.trans pending,
    done.kept.replies, done.kept.draws⟩
  · rw [done.gi, ← hglen]; exact hk

/-! ### PACK and then UNPACK -/

theorem run_inv {s t : State} (inv : s.Inv) {n : Nat} (h : Host.Core.run core n s = .next t) : t.Inv := by
  induction n generalizing s with
  | zero => obtain rfl := Host.Outcome.next.inj h; exact inv
  | succ n ih =>
    cases hstep : step s with
    | next s' => exact ih (stepKeepsInvariant s s' inv hstep) ((run_succ hstep n).symm.trans h)
    | fault r => cases r
    | refused r =>
      have hstep' : core.step s = .refused r := hstep
      simp [Host.Core.run, hstep'] at h

theorem exec_inv {i : Instr} {s t : State} (inv : s.Inv) (h : exec i s = .next t) : t.Inv := by
  have wf : i.wellFormed = true := by cases i <;> rfl
  refine stepKeepsInvariant (scheduleCommand s (encode i)) t (inv.of_quiet rfl) ?_
  rw [stepRunsTheDecodedCommand _ _ s.pending rfl, decodeInvertsEncode i wf]
  exact h

/-- Settles O36: PACK leaves the bytes of the grid, which UNPACK accepts and turns into the grid's binarized image. -/
theorem packThenUnpackRoundTrips : Obligations.PackThenUnpackRoundTrips := by
  unfold Obligations.PackThenUnpackRoundTrips
  intro s g h rows inv idle pending hw hh hg hglen hes
  have hcut : cutRows (gridImage rows) = (rows, []) := cutRows_gridImage (row_ne_nil_of_rectangular hw hg)
  have hp := pack_eq_ok hw hh hg
  obtain ⟨t, u, ht, hrun, -, hst, hblen, hbytes, -, -, -, hwidth, hheight, -, hpending, -⟩ :=
    packOperationComputesPack s g (gridImage rows) _ inv idle pending hes (congrArg Prod.snd hcut)
      ((congrArg (Codec.pack ·.1 s.width s.height) hcut).trans hp)
  have invu : u.Inv := run_inv (exec_inv inv ht) hrun
  have hu := (congrArg₂ (Codec.unpack (rows.flatMap (packRow s.width))) hwidth hheight).trans (unpack_pack hp)
  obtain ⟨t', u', ht', hrun', -, hst', hglen', himage, -⟩ :=
    unpackOperationComputesUnpack u h _ _ invu (congrArg Status.busy hst) hpending hbytes hu
  rw [hwidth, hheight] at hrun' hglen'
  exact ⟨t, u, t', u', ht, hrun, ht', hrun', hst', hglen'.trans hglen.symm, himage⟩

/-! ### PACK at a wrong mark -/

/-- An entry with the wrong mark ends PACK with InvalidInput, and nothing but BLEN and STATUS is written (R113, R176). -/
theorem elementStep_wrong {s : State} (inv : s.Inv) (busy : s.status.busy = true) (pack : s.opl = .pack) {e : Entry}
    (he : Memory.read? s.gmem s.gi = some e) (wrong : entryEol e ≠ decide (s.gi % s.width + 1 = s.width)) :
    elementStep s = { s with blen := 0, status := ⟨false, true, .invalidInput⟩ } := by
  rw [inv.gi_mod busy] at wrong
  have wrong : entryEol e ≠ s.lastCol := wrong
  rw [elementStep_pack pack, packStep_known he, if_pos wrong, raise_pack_eq]

/-- The bytes of a running PACK over known entries: those of R115 below the byte index, and those it found from there on. -/
theorem read_bmem_of_running {s t : State} (inv : t.Inv) (busy : t.status.busy = true) (pack : s.opl = .pack)
    (kept : Kept s t) {es : List Entry} (hread : ∀ i < s.width * s.height, Memory.read? s.gmem i = some (es.getD i 0#9))
    {r k : Nat} (hk : k < ceil8 s.width) : Memory.read? t.bmem (r * ceil8 s.width + k) =
      if r * ceil8 s.width + k < t.bi then some (packByte s.width (fun c => (es.getD (r * s.width + c) 0#9).setWidth 8) k)
      else Memory.read? s.bmem (r * ceil8 s.width + k) := by
  obtain ⟨hgmem, hbmem⟩ := kept.pack_output pack
  split
  next hlt =>
    have hbi : t.bi < s.height * ceil8 s.width := kept.height ▸ kept.width ▸ inv.bi_lt busy
    have hrow : r < s.height := Nat.lt_of_mul_lt_mul_right (a := ceil8 s.width) (by omega)
    have packed := (inv.pack busy (kept.opl.trans pack)).packed r k (kept.rowBytes ▸ hk) (kept.rowBytes ▸ hlt)
    refine packed.eq_packByte kept.width fun c hc _ => ⟨_, ?_, entrySample_eq_setWidth _⟩
    rw [hgmem]
    exact hread _ ((index_lt hrow hc).trans_eq (Nat.mul_comm ..))
  next hge => exact hbmem _ (Nat.le_of_not_lt hge)

/-- Settles O34: the entries before the wrong one are known and rightly marked, so the operation comes to it; the step on
it ends the operation, and the bytes are those of `read_bmem_of_running`. -/
theorem packOperationStopsAtRaggedRow : Obligations.PackOperationStopsAtRaggedRow := by
  unfold Obligations.PackOperationStopsAtRaggedRow
  intro s g es i inv idle pending hes hw hh hglen hi wrong right
  simp only [← ceil8_eq]
  have hread := (elements_known_iff.mp hes).2
  rw [hglen] at hread hi
  have mark (j : Nat) : (j % s.width = s.width - 1) = (j % s.width + 1 = s.width) := propext (by omega)
  simp only [mark] at wrong right
  have check : startCheck .pack s = none := packStartCheck_none.mpr ⟨hw, hh, hglen⟩
  have known : (s.started .pack).KnownTo i :=
    (State.knownTo_pack rfl).mpr fun j hj => ⟨_, hread j (hj.trans hi), right j hj⟩
  have running {n : Nat} (hn : n ≤ i) := started_running inv check known (hn.trans_lt hi) hn
  obtain ⟨hst, hgi, kept⟩ := running le_rfl
  have inv' := iterate_inv (State.started_inv inv check) i
  have hrun := started_run pending .pack (i + 1)
  rw [Function.iterate_succ_apply'] at hrun
  generalize blockTurn^[i] (s.started .pack) = t at *
  have busy : t.status.busy = true := congrArg Status.busy hst
  obtain ⟨row, col, grid, byte⟩ := inv'.cursor busy
  obtain ⟨hgmem, -⟩ := kept.pack_output rfl
  have hstep : blockTurn t = { t with blen := 0, status := ⟨false, true, .invalidInput⟩ } :=
    (blockTurn_busy busy).trans (elementStep_wrong inv' busy kept.opl (by rw [hgmem, hgi]; exact hread i hi)
      (by rw [hgi, kept.width]; exact wrong))
  rw [hstep] at hrun
  have hbi : t.bi = i / s.width * ceil8 s.width + i % s.width / 8 := by
    have col' : t.c < s.width := kept.width ▸ col
    have hi' : i = t.r * s.width + t.c := hgi.symm.trans (grid.trans (congrArg (t.r * · + t.c) kept.width))
    rw [hi', div_row_col col', mod_row_col col', byte, kept.rowBytes]
    rfl
  refine ⟨_, _, exec_pack_start g idle check, hrun, fun n hn => ⟨_, started_run pending .pack n, (running hn).1⟩,
    rfl, rfl, fun r k hk => ?_, hgmem, kept.glen rfl, kept.width, kept.height⟩
  rw [← hbi]
  exact read_bmem_of_running inv' busy rfl kept hread hk

/-! ### What a PACK depends on -/

theorem packStartCheck_congr {s s' : State} (hw : s.width = s'.width) (hh : s.height = s'.height)
    (hglen : s.glen = s'.glen) : startCheck .pack s' = startCheck .pack s := by
  show packStartCheck s' = packStartCheck s
  rw [packStartCheck, packStartCheck, State.entryCount, State.entryCount, hw, hh, hglen]

/-- Where not every mark is right there is a first wrong one. -/
theorem exists_first_wrong {es : List Entry} {w : Nat}
    (h : ¬∀ i < es.length, (es.getD i 0#9).getLsbD 8 = decide (i % w = w - 1)) :
    ∃ i < es.length, (es.getD i 0#9).getLsbD 8 ≠ decide (i % w = w - 1) ∧
      ∀ j < i, (es.getD j 0#9).getLsbD 8 = decide (j % w = w - 1) := by
  have wrong : ∃ i, i < es.length ∧ (es.getD i 0#9).getLsbD 8 ≠ decide (i % w = w - 1) := by simpa using h
  obtain ⟨hlt, hne⟩ := Nat.find_spec wrong
  exact ⟨_, hlt, hne, fun j hj => not_not.mp fun hj' => Nat.find_min wrong hj ⟨hj.trans hlt, hj'⟩⟩

/-- Settles O37: the start check, the first wrong mark and, without one, the grid are those of the dimensions, GLEN and the
entries, so the three ends are the same in both states. -/
theorem packDependsOnItsArgumentsOnly : Obligations.PackDependsOnItsArgumentsOnly := by
  unfold Obligations.PackDependsOnItsArgumentsOnly
  intro s s' g g' es inv inv' idle idle' pending pending' hw hh hglen hes hes'
  have hcheck := packStartCheck_congr hw hh hglen
  cases check : startCheck .pack s with
  | some e =>
    have hexec {t : State} (g : BitVec 30) (idle : t.status.busy = false) (check : startCheck .pack t = some e) :
        exec (.pack g) t = .next { t with blen := 0, status := ⟨false, true, e⟩ } := by
      rw [exec_pack, command_error .pack idle check, raise_pack_eq]
    exact ⟨0, _, _, _, _, hexec g idle check, hexec g' idle' (hcheck.trans check), rfl, rfl,
      fun k hk => absurd hk (Nat.not_lt_zero k), rfl, rfl, rfl, rfl⟩
  | none =>
    obtain ⟨wpos, hpos, count⟩ := packStartCheck_none.mp check
    have count : s.glen = s.width * s.height := count
    have hlen : es.length = s.width * s.height := (elements_known_iff.mp hes).1.trans count
    by_cases right : ∀ i < es.length, (es.getD i 0#9).getLsbD 8 = decide (i % s.width = s.width - 1)
    · obtain ⟨hrest, hg⟩ := (cutRowsMatchTheRowCheck es s.width s.height wpos).mpr ⟨hlen, right⟩
      have hp := pack_eq_ok wpos hpos hg
      have hp' := (congrArg₂ (Codec.pack (cutRows es).1) hw.symm hh.symm).trans hp
      obtain ⟨t, u, ht, hrun, hbusy, hst, hblen, hbytes, -⟩ :=
        packOperationComputesPack s g es _ inv idle pending hes hrest hp
      obtain ⟨t', u', ht', hrun', hbusy', hst', hblen', hbytes', -⟩ :=
        packOperationComputesPack s' g' es _ inv' idle' pending' hes' hrest hp'
      rw [← hw, ← hh] at hrun' hbusy' hblen'
      refine ⟨_, t, t', u, u', ht, ht', hrun, hrun', fun k hk => ?_, congrArg Status.busy hst, hst.trans hst'.symm,
        hblen.trans hblen'.symm, hbytes.trans hbytes'.symm⟩
      obtain ⟨v, hv, hvst⟩ := hbusy k hk
      obtain ⟨v', hv', hvst'⟩ := hbusy' k hk
      exact ⟨v, v', hv, congrArg Status.busy hvst, hv', congrArg Status.busy hvst'⟩
    · obtain ⟨i, hi, wrong, first⟩ := exists_first_wrong right
      rw [hlen, ← count] at hi
      obtain ⟨t, u, ht, hrun, hbusy, hst, hblen, -⟩ :=
        packOperationStopsAtRaggedRow s g es i inv idle pending hes wpos hpos count hi wrong first
      rw [hw, hh, hglen] at count
      rw [hw] at wpos wrong first
      obtain ⟨t', u', ht', hrun', hbusy', hst', hblen', -⟩ := packOperationStopsAtRaggedRow s' g' es i inv' idle' pending'
        hes' wpos (hh ▸ hpos) count (hglen ▸ hi) wrong first
      refine ⟨_, t, t', u, u', ht, ht', hrun, hrun', fun k hk => ?_, congrArg Status.busy hst, hst.trans hst'.symm,
        hblen.trans hblen'.symm, by rw [hblen, hblen']; rfl⟩
      obtain ⟨v, hv, hvst⟩ := hbusy k (Nat.le_of_lt_succ hk)
      obtain ⟨v', hv', hvst'⟩ := hbusy' k (Nat.le_of_lt_succ hk)
      exact ⟨v, v', hv, congrArg Status.busy hvst, hv', congrArg Status.busy hvst'⟩

/-! ### Host transactions among the turns -/

theorem iterate_idle {s : State} (idle : s.status.busy = false) (n : Nat) : blockTurn^[n] s = s :=
  Function.iterate_fixed (blockTurn_idle idle) n

/-- On known inputs the block's turn does not look at the count of draws either. -/
theorem quiet_blockTurn {s t : State} (h : Quiet s t) (inv : s.Inv) (busy : s.status.busy = true) {m : Nat}
    (known : s.KnownTo m) (hm : s.gi < m) : Quiet (blockTurn s) (blockTurn t) := by
  obtain ⟨p, r, d, rfl⟩ : ∃ p r d, t = s.env p r d := ⟨_, _, _, h⟩
  have busy' : (s.env p r d).status.busy = true := busy
  have inv' : (s.env p r d).Inv := inv.of_quiet h
  rw [blockTurn_busy busy, blockTurn_busy busy']
  cases hop : s.opl with
  | pack =>
    have hop' : (s.env p r d).opl = .pack := hop
    have known' : (s.env p r d).KnownTo m := (State.knownTo_pack hop').mpr ((State.knownTo_pack hop).mp known)
    obtain ⟨e, he, hstep⟩ := packStep_knownTo inv busy hop known hm
    obtain ⟨e', he', hstep'⟩ := packStep_knownTo inv' busy' hop' known' hm
    obtain rfl : e' = e := Option.some.inj (he'.symm.trans he)
    rw [elementStep_pack hop, elementStep_pack hop', hstep, hstep', packPixel_env]
    rfl
  | unpack =>
    have hop' : (s.env p r d).opl = .unpack := hop
    have known' : (s.env p r d).KnownTo m := (State.knownTo_unpack hop').mpr ((State.knownTo_unpack hop).mp known)
    obtain ⟨b, hb, hstep⟩ := unpackStep_knownTo inv busy hop known
    obtain ⟨b', hb', hstep'⟩ := unpackStep_knownTo inv' busy' hop' known'
    obtain rfl : b' = b := Option.some.inj (hb'.symm.trans hb)
    rw [elementStep_unpack hop, elementStep_unpack hop', hstep, hstep', unpackPixel_env]
    rfl

/-- A move that is a host write or a host read, or the block's turn. -/
def Move.IsHostOrTurn (m : Move) : Prop :=
  m = .block ∨ (∃ sp i w, m = .hostWrite sp i w) ∨ (∃ sp i, m = .hostRead sp i)

/-- A host transaction while BUSY is quiet and takes its move off the schedule (R53). -/
theorem step_host_busy {t : State} {m : Move} {ms : List Move} (busy : t.status.busy = true) (ht : t.pending = m :: ms)
    (host : (∃ sp i w, m = .hostWrite sp i w) ∨ (∃ sp i, m = .hostRead sp i)) :
    ∃ t', step t = .next t' ∧ Quiet t t' ∧ t'.pending = ms := by
  have hq := Quiet.of_pending t ms
  rw [step, nextMove, ht]
  obtain ⟨sp, i, w, rfl⟩ | ⟨sp, i, rfl⟩ := host
  · exact ⟨_, hostWrite_busy (s := t.setPending ms) busy sp i w, hq, rfl⟩
  · refine ⟨_, rfl, hq.trans (quiet_hostRead sp i _), ?_⟩
    cases sp with
    | reg => rfl
    | gmem | bmem => rw [hostRead_memory_busy (s := t.setPending ms) busy (by decide)]; rfl

/-- Turns alone and turns among host transactions lead a running operation to states that differ in the schedule, the
replies and the count of draws only. -/
theorem run_host_quiet {s t : State} {ms : List Move} (hq : Quiet s t) (ht : t.pending = ms) (inv : s.Inv)
    (known : s.KnownTo (s.width * s.height)) (hms : ∀ m ∈ ms, m.IsHostOrTurn)
    (running : (blockTurn^[ms.count .block] s).status.busy = true) :
    ∃ u, Host.Core.run core ms.length t = .next u ∧ Quiet (blockTurn^[ms.count .block] s) u ∧ u.pending = [] := by
  induction ms generalizing s t with
  | nil => exact ⟨t, rfl, hq, ht⟩
  | cons m ms ih =>
    have busy : s.status.busy = true := by
      by_contra idle
      rw [iterate_idle (Bool.eq_false_iff.mpr idle)] at running
      exact idle running
    have hlt : s.gi < s.width * s.height := (inv.gi_lt busy).trans_eq (Nat.mul_comm ..)
    obtain ⟨hm, hms'⟩ := List.forall_mem_cons.mp hms
    obtain rfl | host := hm
    · have kept := elementStep_kept inv busy known hlt
      rw [List.count_cons_self, Function.iterate_succ_apply, blockTurn_busy busy] at running ⊢
      rw [List.length_cons, run_succ (step_scheduledTurn ht)]
      refine ih ?_ rfl (elementStep_inv inv busy) ?_ hms' running
      · rw [← blockTurn_busy busy]
        exact (quiet_blockTurn hq inv busy known hlt).trans (.of_pending _ ms)
      · rw [kept.width, kept.height]
        exact kept.knownTo known
    · obtain ⟨t', hstep, hq', ht'⟩ := step_host_busy (hq.status ▸ busy) ht host
      have hne : m ≠ .block := by obtain ⟨sp, i, w, rfl⟩ | ⟨sp, i, rfl⟩ := host <;> exact Move.noConfusion
      rw [List.count_cons_of_ne hne] at running ⊢
      rw [List.length_cons, run_succ hstep]
      exact ih (hq.trans hq') ht' inv known hms' running

theorem State.GridOk.knownTo {s : State} (grid : s.GridOk) (pack : s.opl = .pack) : s.KnownTo (s.width * s.height) := by
  refine (State.knownTo_pack pack).mpr fun i hi => ?_
  have hw : 0 < s.width := Nat.pos_of_lt_mul_right hi
  obtain ⟨e, he, right⟩ := grid (i / s.width) (i % s.width) (row_lt (Nat.mul_comm s.width s.height ▸ hi)) (Nat.mod_lt i hw)
  rw [row_col_eq] at he
  exact ⟨e, he, right⟩

theorem State.knownTo_of_inputs {s : State} (grid : s.opl = .pack → s.GridOk)
    (bytes : s.opl = .unpack → ∀ k, k < s.blen → ∃ b, Memory.read? s.bmem k = some b) :
    s.KnownTo (s.width * s.height) := by
  cases hop : s.opl with
  | pack => exact (grid hop).knownTo hop
  | unpack => exact (State.knownTo_unpack hop).mpr (bytes hop)

theorem iterate_pending (s : State) (n : Nat) : (blockTurn^[n] s).pending = s.pending := by
  induction n with
  | zero => rfl
  | succ n ih => rw [Function.iterate_succ_apply', blockTurn_pending, ih]

/-- Settles O38: both schedules are followed step by step (`run_host_quiet`), from states that differ in the schedule. -/
theorem hostCannotDisturbARunningOperation : Obligations.HostCannotDisturbARunningOperation := by
  unfold Obligations.HostCannotDisturbARunningOperation
  intro s v ms inv busy grid bytes hms hrun running
  rw [run_eq_iterate rfl] at hrun
  obtain rfl := Host.Outcome.next.inj hrun
  have known := State.knownTo_of_inputs (s := { s with pending := [] }) grid bytes
  obtain ⟨u, hu, hquiet, hpending⟩ := run_host_quiet (s := { s with pending := [] }) (t := { s with pending := ms })
    rfl rfl (inv.of_quiet rfl) known hms running
  have hpending' := iterate_pending { s with pending := [] } (ms.count .block)
  generalize blockTurn^[ms.count .block] { s with pending := [] } = v at *
  refine ⟨u, hu, ?_⟩
  have hu' : u = { v with pending := u.pending, replies := u.replies, draws := u.draws } := hquiet
  rwa [hpending.trans hpending'.symm] at hu'

end Sys2Proof.Machine
end

section
/-! PROOFS. Who writes what (10_state.md sections 2 to 6, 20_memory.md sections 1 and 4, 60_exceptions.md section 5): STATUS,
the hidden registers, the operand registers and the memories, each from what one step can do and the move it takes. -/

namespace Sys2Proof.Machine

theorem nextIsCommand_of_event {s q : State} (hq : Quiet s q) (idle : q.status.busy = false) {o : Operation} {v : Word}
    (op : v &&& 0x3#32 = commandMatch o) (next : s.NextWrites .reg 0 v) : s.NextIsCommand := by
  refine ⟨hq.status ▸ idle, v, ?_, next⟩
  cases o with
  | pack => exact .inl op
  | unpack => exact .inr op

/-! ### STATUS -/

/-- Settles O26: a host write and a quiet move leave STATUS alone, and an element step changes it only by completing. -/
theorem onlyTheseWriteStatus : Obligations.OnlyTheseWriteStatus := by
  unfold Obligations.OnlyTheseWriteStatus
  intro s t h changed
  obtain hq | ⟨q, hq, event⟩ := step_event h
  · exact absurd hq.status changed
  rw [← hq.status] at changed
  cases event with
  | register => exact absurd (State.setX_status ..) changed
  | grid | byte => exact absurd rfl changed
  | refuse idle o v op next => exact .inl (nextIsCommand_of_event hq idle op next)
  | start idle o v op next => exact .inl (nextIsCommand_of_event hq idle op next)
  | element next =>
    obtain ⟨d, ⟨-, h⟩ | h⟩ := elementStep_cases (s := q) rfl
    · rw [h]; exact .inr (.inl ⟨next, rfl, rfl⟩)
    · have done := h.status.resolve_left changed
      exact .inr (.inl ⟨next, congrArg Status.busy done, congrArg Status.done done⟩)
  | reset ms next => exact .inr (.inr ⟨⟨ms, .inl next⟩, rfl⟩)
  | powerUp ms next => exact .inr (.inr ⟨⟨ms, .inr next⟩, rfl⟩)

/-! ### The hidden registers -/

/-- `t` has the hidden registers of `s`. -/
def SameHidden (t s : State) : Prop :=
  t.opl = s.opl ∧ t.r = s.r ∧ t.c = s.c ∧ t.gi = s.gi ∧ t.bi = s.bi ∧ t.acc = s.acc

theorem SameHidden.of_quiet {s t : State} (h : Quiet s t) : SameHidden t s := ⟨h.opl, h.r, h.c, h.gi, h.bi, h.acc⟩

theorem SameHidden.trans {s t u : State} (h : SameHidden u t) (h' : SameHidden t s) : SameHidden u s := by
  obtain ⟨opl, r, c, gi, bi, acc⟩ := h
  obtain ⟨opl', r', c', gi', bi', acc'⟩ := h'
  exact ⟨opl.trans opl', r.trans r', c.trans c', gi.trans gi', bi.trans bi', acc.trans acc'⟩

theorem sameHidden_setX (s : State) (n : OperandReg) (v : Nat) : SameHidden (s.setX n v) s := by
  cases n <;> exact ⟨rfl, rfl, rfl, rfl, rfl, rfl⟩

theorem sameHidden_raise (o : Operation) (e : ErrCode) (s : State) : SameHidden (raise o e s) s := by
  cases o <;> exact ⟨rfl, rfl, rfl, rfl, rfl, rfl⟩

/-- Settles O27: a host write, a failing command and a quiet move leave every hidden register alone. -/
theorem onlyTheseMoveTheCursor : Obligations.OnlyTheseMoveTheCursor := by
  unfold Obligations.OnlyTheseMoveTheCursor
  intro s t h (changed : ¬SameHidden t s)
  obtain hq | ⟨q, hq, event⟩ := step_event h
  · exact absurd (.of_quiet hq) changed
  have changed : ¬SameHidden t q := fun same => changed (same.trans (.of_quiet hq))
  cases event with
  | register => exact absurd (sameHidden_setX ..) changed
  | grid | byte => exact absurd ⟨rfl, rfl, rfl, rfl, rfl, rfl⟩ changed
  | refuse => exact absurd (sameHidden_raise ..) changed
  | start idle o v op next => exact .inl ⟨nextIsCommand_of_event hq idle op next, rfl, rfl, rfl, rfl, rfl, rfl⟩
  | element next => exact .inr (.inl ⟨next, (elementStep_opl q).trans hq.opl⟩)
  | reset ms next => exact .inr (.inr ⟨⟨ms, .inl next⟩, rfl, rfl, rfl, rfl, rfl, rfl⟩)
  | powerUp ms next => exact .inr (.inr ⟨⟨ms, .inr next⟩, rfl, rfl, rfl, rfl, rfl, rfl⟩)

/-! ### The operand registers -/

theorem Quiet.x {s t : State} (h : Quiet s t) (n : OperandReg) : t.x n = s.x n := by
  rw [h]
  cases n <;> rfl

theorem raise_x_out (o : Operation) (e : ErrCode) (s : State) : (raise o e s).x (outReg o) = 0 := by
  cases o <;> simp [raise, State.x]

theorem raise_x_other {o : Operation} {n : OperandReg} (hn : n ≠ outReg o) (e : ErrCode) (s : State) :
    (raise o e s).x n = s.x n :=
  State.x_setX_other s 0 hn

theorem started_x (o : Operation) (s : State) (n : OperandReg) : (s.started o).x n = s.x n := by cases n <;> rfl

theorem resetRegisters_x (s : State) (n : OperandReg) : (resetRegisters s).x n = 0 := by cases n <;> rfl

/-- An element step writes an operand register only where it ends the operation whose output length it is. -/
theorem elementStep_x {s : State} {n : OperandReg} (changed : (elementStep s).x n ≠ s.x n) :
    n = outReg s.opl ∧ (elementStep s).status.busy = false ∧ (elementStep s).status.done = true := by
  obtain ⟨d, ⟨pack, h⟩ | h⟩ := elementStep_cases (s := s) rfl
  · rw [h] at changed ⊢
    exact ⟨by_contra fun hn => changed (raise_x_other (pack ▸ hn) _ _), rfl, rfl⟩
  · have out : n = outReg s.opl := by_contra fun hn => changed (h.operand n hn)
    subst out
    obtain ⟨-, -, -, -, hx⟩ | ⟨-, -, -, -, -, hx⟩ | ⟨-, -, -, -, hst, -⟩ := h.cursor
    · exact absurd hx changed
    · exact absurd hx changed
    · exact ⟨rfl, congrArg Status.busy hst, congrArg Status.done hst⟩

/-- Settles O28: each event that writes an operand register names it. -/
theorem onlyTheseWriteOperandRegisters : Obligations.OnlyTheseWriteOperandRegisters := by
  unfold Obligations.OnlyTheseWriteOperandRegisters
  intro s t n h changed
  obtain hq | ⟨q, hq, event⟩ := step_event h
  · exact absurd (hq.x n) changed
  rw [← hq.x] at changed
  cases event with
  | register idle n' v next =>
    obtain rfl : n = n' := by_contra fun hn => changed (State.x_setX_other q _ hn)
    exact .inl ⟨hq.status ▸ idle, v, by cases n <;> exact next⟩
  | grid => exact absurd (memWriteGrid_x ..) changed
  | byte => exact absurd (memWriteByte_x ..) changed
  | refuse idle o v op next e check =>
    obtain rfl : n = outReg o := by_contra fun hn => changed (raise_x_other hn e q)
    refine .inr (.inl ⟨hq.status ▸ idle, ⟨v, next, ?_⟩, raise_x_out o e q, rfl, ?_⟩)
    · cases o with
      | pack => exact .inl ⟨op, rfl⟩
      | unpack => exact .inr ⟨op, rfl⟩
    · show e ≠ .noError
      obtain rfl | rfl := startCheck_some check <;> decide
  | start => exact absurd (started_x ..) changed
  | element next => exact .inr (.inr (.inl ⟨next, hq.opl ▸ elementStep_x changed⟩))
  | reset ms next => exact .inr (.inr (.inr ⟨⟨ms, .inl next⟩, resetRegisters_x _ n⟩))
  | powerUp ms next => exact .inr (.inr (.inr ⟨⟨ms, .inr next⟩, resetRegisters_x _ n⟩))

/-! ### The memories -/

theorem elementStep_gmem {s : State} {k : Nat}
    (changed : Memory.read? (elementStep s).gmem k ≠ Memory.read? s.gmem k) : s.opl = .unpack ∧ k = s.gi := by
  cases hop : s.opl with
  | pack => rw [elementStep_pack hop, packStep_gmem] at changed; exact absurd rfl changed
  | unpack =>
    rw [elementStep_unpack hop] at changed
    obtain ⟨cur, d, -, h⟩ := unpackStep_cases s
    obtain ⟨_, rfl, hgmem, -⟩ := unpackPixel_cases cur { s with draws := d }
    rw [h, hgmem] at changed
    exact ⟨rfl, by_contra fun hk => changed (Memory.read?_write_other _ _ hk)⟩

theorem unpackStep_bmem (s : State) : (unpackStep s).bmem = s.bmem := by
  obtain ⟨cur, d, -, h⟩ := unpackStep_cases s
  obtain ⟨_, rfl, -, -, -, -, -, -, -, -, -, hbmem, -⟩ := unpackPixel_cases cur { s with draws := d }
  rw [h, hbmem]

theorem elementStep_bmem {s : State} {k : Nat}
    (changed : Memory.read? (elementStep s).bmem k ≠ Memory.read? s.bmem k) : s.opl = .pack ∧ k = s.bi := by
  cases hop : s.opl with
  | unpack => rw [elementStep_unpack hop, unpackStep_bmem] at changed; exact absurd rfl changed
  | pack =>
    rw [elementStep_pack hop] at changed
    obtain ⟨e, d, -, ⟨-, h⟩ | ⟨-, h⟩⟩ := packStep_cases s <;> rw [h] at changed
    · exact absurd (congrArg (Memory.read? · k) (raise_bmem ..)) changed
    · obtain ⟨_, rfl, hbmem, -⟩ := packPixel_cases e { s with draws := d }
      rw [hbmem] at changed
      refine ⟨rfl, by_contra fun hk => changed ?_⟩
      split
      · exact Memory.read?_write_other _ _ hk
      · rfl

/-- Reset forgets the output memory of the running operation, and no other (R200). -/
theorem resetEvent_gmem {s : State} {k : Nat} (changed : Memory.read? (resetEvent s).gmem k ≠ Memory.read? s.gmem k) :
    Memory.read? (resetEvent s).gmem k = none ∧ s.status.busy = true ∧ s.opl = .unpack := by
  cases busy : s.status.busy with
  | false => rw [resetEvent_idle busy] at changed; exact absurd rfl changed
  | true =>
    cases hop : s.opl with
    | pack => rw [resetEvent_packing busy hop] at changed; exact absurd rfl changed
    | unpack => rw [resetEvent_unpacking busy hop]; exact ⟨rfl, rfl, rfl⟩

theorem resetEvent_bmem {s : State} {k : Nat} (changed : Memory.read? (resetEvent s).bmem k ≠ Memory.read? s.bmem k) :
    Memory.read? (resetEvent s).bmem k = none ∧ s.status.busy = true ∧ s.opl = .pack := by
  cases busy : s.status.busy with
  | false => rw [resetEvent_idle busy] at changed; exact absurd rfl changed
  | true =>
    cases hop : s.opl with
    | pack => rw [resetEvent_packing busy hop]; exact ⟨rfl, rfl, rfl⟩
    | unpack => rw [resetEvent_unpacking busy hop] at changed; exact absurd rfl changed

/-- Settles O29: each event that writes an element of a memory names it, and reset and power-up forget it. -/
theorem onlyTheseWriteMemory : Obligations.OnlyTheseWriteMemory := by
  unfold Obligations.OnlyTheseWriteMemory
  intro s t k h
  obtain hq | ⟨q, hq, event⟩ := step_event h
  · exact ⟨fun changed => absurd (congrArg (Memory.read? · k) hq.gmem) changed,
      fun changed => absurd (congrArg (Memory.read? · k) hq.bmem) changed⟩
  rw [← hq.gmem, ← hq.bmem, ← hq.status, ← hq.opl, ← hq.gi, ← hq.bi]
  cases event with
  | register =>
    rw [State.setX_gmem, State.setX_bmem]
    exact ⟨absurd rfl, absurd rfl⟩
  | grid idle i v next =>
    refine ⟨fun changed => .inl ⟨idle, v, ?_⟩, absurd rfl⟩
    obtain rfl : k = i := by_contra fun hk => changed (Memory.read?_write_other _ _ hk)
    exact next
  | byte idle i v next =>
    refine ⟨absurd rfl, fun changed => .inl ⟨idle, v, ?_⟩⟩
    obtain rfl : k = i := by_contra fun hk => changed (Memory.read?_write_other _ _ hk)
    exact next
  | refuse =>
    rw [raise_gmem, raise_bmem]
    exact ⟨absurd rfl, absurd rfl⟩
  | start => exact ⟨absurd rfl, absurd rfl⟩
  | element next =>
    exact ⟨fun changed => .inr (.inl ⟨next, elementStep_gmem changed⟩),
      fun changed => .inr (.inl ⟨next, elementStep_bmem changed⟩)⟩
  | reset ms next =>
    refine ⟨fun changed => ?_, fun changed => ?_⟩
    · obtain ⟨forgotten, running⟩ := resetEvent_gmem changed
      exact .inr (.inr ⟨⟨ms, .inl next⟩, forgotten, .inl running⟩)
    · obtain ⟨forgotten, running⟩ := resetEvent_bmem changed
      exact .inr (.inr ⟨⟨ms, .inl next⟩, forgotten, .inl running⟩)
  | powerUp ms next =>
    exact ⟨fun _ => .inr (.inr ⟨⟨ms, .inr next⟩, rfl, .inr ⟨ms, next⟩⟩),
      fun _ => .inr (.inr ⟨⟨ms, .inr next⟩, rfl, .inr ⟨ms, next⟩⟩)⟩

end Sys2Proof.Machine
end

section
/-! PROOFS. The rest of the host port (20_memory.md R51 to R55, 30_encoding.md R85, R89): indices outside a space, the
status word, unspecified elements, the flat binding, and the moves that always answer. -/

namespace Sys2Proof.Machine

/-! ### Indices outside a space -/

theorem memWriteGrid_outside {s : State} {i : Nat} (h : gcap s.cfg ≤ i) (e : Entry) : memWriteGrid s i e = s := by
  rw [memWriteGrid, Memory.write_outside _ _ h]
  rfl

theorem memWriteByte_outside {s : State} {i : Nat} (h : bcap s.cfg ≤ i) (b : Byte) : memWriteByte s i b = s := by
  rw [memWriteByte, Memory.write_outside _ _ h]
  rfl

theorem hostWrite_gmem_outside {s : State} {i : Nat} (h : gcap s.cfg ≤ i) (v : Word) :
    hostWrite .gmem i v s = .next s := by
  rw [hostWrite, memWriteGrid_outside h, ite_self]

theorem hostWrite_bmem_outside {s : State} {i : Nat} (h : bcap s.cfg ≤ i) (v : Word) :
    hostWrite .bmem i v s = .next s := by
  rw [hostWrite, memWriteByte_outside h, ite_self]

theorem hostRead_gmem_outside {s : State} {i : Nat} (idle : s.status.busy = false) (h : gcap s.cfg ≤ i) :
    hostRead .gmem i s = s.reply 0#32 := by
  simp [hostRead, idle, Nat.not_lt.mpr h]

theorem hostRead_bmem_outside {s : State} {i : Nat} (idle : s.status.busy = false) (h : bcap s.cfg ≤ i) :
    hostRead .bmem i s = s.reply 0#32 := by
  simp [hostRead, idle, Nat.not_lt.mpr h]

/-- Settles O41: no register has such an index, and the memories' writes and reads are guarded by their sizes. -/
theorem indicesOutsideASpace : Obligations.IndicesOutsideASpace := by
  unfold Obligations.IndicesOutsideASpace
  intro s m v i q on
  refine ⟨fun h => ?reg, fun h => ⟨hostWrite_gmem_outside (s := q) h v, fun idle => ?gmem⟩,
    fun h => ⟨hostWrite_bmem_outside (s := q) h v, fun idle => ?bmem⟩⟩
  case reg =>
    obtain ⟨j, rfl⟩ := Nat.exists_eq_add_of_le' h
    exact ⟨rfl, rfl⟩
  case gmem => exact congrArg Host.Outcome.next (hostRead_gmem_outside (s := q) idle h)
  case bmem => exact congrArg Host.Outcome.next (hostRead_bmem_outside (s := q) idle h)

/-! ### The status word -/

/-- The values of STATUS under R29: idle, running, and the three ways to be done. -/
theorem State.StatusOk.cases {s : State} (ok : s.StatusOk) : s.status = ⟨false, false, .noError⟩ ∨
    s.status = ⟨true, false, .noError⟩ ∨ s.status = ⟨false, true, .noError⟩ ∨ s.status = ⟨false, true, .invalidInput⟩ ∨
    s.status = ⟨false, true, .lengthMismatch⟩ := by
  obtain ⟨busy_done, err_done, busy_err, err_code⟩ := ok
  generalize s.status = st at *
  obtain ⟨busy, done, err⟩ := st
  cases busy <;> cases done <;> cases err <;> simp at busy_done err_done busy_err err_code ⊢

/-- Settles O43: the fields by the values of STATUS, and the words by the five of them that R29 leaves. -/
theorem statusWordValues : Obligations.StatusWordValues := by
  unfold Obligations.StatusWordValues
  rintro ⟨busy, done, err⟩
  refine ⟨?busy, ?done, ?err, fun s hs ok => ?word⟩
  case busy => cases busy <;> cases done <;> cases err <;> rfl
  case done => cases busy <;> cases done <;> cases err <;> rfl
  case err => cases busy <;> cases done <;> cases err <;> rfl
  case word =>
    rw [← hs]
    obtain h | h | h | h | h := ok.cases <;> rw [h] <;> decide

/-! ### Unspecified elements -/

theorem step_read_unspecified {s : State} {i : Nat} {m : List Move} (pending : s.pending = .hostRead .gmem i :: m)
    (idle : s.status.busy = false) (hi : i < gcap s.cfg) (unspecified : Memory.read? s.gmem i = none) :
    step s = .next ((s.setPending m).drew.reply (((Config.freeWord s.draws).setWidth 9).setWidth 32)) := by
  rw [step, nextMove, pending]
  exact congrArg Host.Outcome.next (hostRead_gmem_unspecified (s := s.setPending m) idle hi unspecified)

/-- Settles O44: each read draws the next free value and leaves the entry unspecified. -/
theorem unwrittenElementReadsFresh : Obligations.UnwrittenElementReadsFresh := by
  unfold Obligations.UnwrittenElementReadsFresh
  intro s i m idle hi unspecified
  have first := step_read_unspecified (s := s.setPending (.hostRead .gmem i :: .hostRead .gmem i :: m)) rfl idle hi
    unspecified
  refine ⟨_, _, first, step_read_unspecified (i := i) (m := m) ?_ ?_ ?_ ?_, ?_⟩
  · rw [State.reply_pending, State.drew_pending, State.setPending_pending]
  · exact idle
  · exact hi
  · exact unspecified
  · simp

/-! ### The flat binding -/

theorem indexIn_base (cfg : Config) {sp : Space} {i : Nat} (hi : i < spaceSize cfg sp) :
    indexIn cfg sp (spaceBase cfg sp + 4 * i) = some i := by
  have hsub : spaceBase cfg sp + 4 * i - spaceBase cfg sp = 4 * i := Nat.add_sub_cancel_left ..
  rw [indexIn, hsub, Nat.mul_mod_right, Nat.mul_div_cancel_left i (by decide), if_pos ⟨Nat.le_add_right .., rfl, hi⟩]

/-- An address in the window of one space is in no window apart from it. -/
theorem indexIn_apart {cfg : Config} {p q : Space} (h : cfg.apart p q = true ∨ cfg.apart q p = true) {i : Nat}
    (hi : i < spaceSize cfg q) : indexIn cfg p (spaceBase cfg q + 4 * i) = none := by
  simp only [Config.apart, Bool.or_eq_true, decide_eq_true_eq] at h
  exact if_neg (by omega)

theorem Config.wellFormed_bases {cfg : Config} (wf : cfg.wellFormed = true) :
    (∀ sp, spaceBase cfg sp % 4 = 0) ∧ cfg.apart .reg .gmem = true ∧ cfg.apart .reg .bmem = true ∧
      cfg.apart .gmem .bmem = true := by
  simp only [Config.wellFormed, Config.basesAligned, Bool.and_eq_true, beq_iff_eq] at wf
  obtain ⟨⟨⟨⟨-, ⟨hreg, hgmem⟩, hbmem⟩, hrg⟩, hrb⟩, hgb⟩ := wf
  refine ⟨fun sp => ?_, hrg, hrb, hgb⟩
  cases sp with
  | reg => exact hreg
  | gmem => exact hgmem
  | bmem => exact hbmem

/-- With windows that do not overlap, `base + 4 * i` is the address of element `i` of its space alone (R51). -/
theorem resolve_base {cfg : Config} (wf : cfg.wellFormed = true) {sp : Space} {i : Nat} (hi : i < spaceSize cfg sp) :
    resolve cfg (spaceBase cfg sp + 4 * i) = some (sp, i) := by
  obtain ⟨-, hrg, hrb, hgb⟩ := Config.wellFormed_bases wf
  have own := indexIn_base cfg hi
  cases sp with
  | reg => simp [resolve, own]
  | gmem => simp [resolve, own, indexIn_apart (.inl hrg) hi]
  | bmem => simp [resolve, own, indexIn_apart (.inl hrb) hi, indexIn_apart (.inl hgb) hi]

section Flat

variable {s : State} {addr : Nat} {sp : Space} {i : Nat} (aligned : addr % 4 = 0) (h : resolve s.cfg addr = some (sp, i))
  (v : Word)
include aligned h

theorem flatAccess_write : flatAccess ⟨.write, addr, 32, v⟩ s = hostWrite sp i v s := by
  simp [flatAccess, aligned, h]

theorem flatAccess_read : flatAccess ⟨.read, addr, 32, v⟩ s = .next (hostRead sp i s) := by
  simp [flatAccess, aligned, h]

end Flat

/-- Settles O45: the address resolves to the space and the index. -/
theorem flatBindingIsTheSpaceAndIndex : Obligations.FlatBindingIsTheSpaceAndIndex := by
  unfold Obligations.FlatBindingIsTheSpaceAndIndex
  intro s sp i v m wf hi
  have resolved := resolve_base wf hi
  have aligned : (spaceBase s.cfg sp + 4 * i) % 4 = 0 := by
    rw [Nat.add_mul_mod_self_left]
    exact (Config.wellFormed_bases wf).1 sp
  exact ⟨flatAccess_write (s := s.setPending m) aligned resolved v,
    flatAccess_read (s := s.setPending m) aligned resolved v⟩

/-- Settles O46: the encoding of a line and its transaction are built from the same triple, and the rows of the table are
those triples written out. -/
theorem hostNotationEncodesItsTransactions : Obligations.HostNotationEncodesItsTransactions := by
  unfold Obligations.HostNotationEncodesItsTransactions
  refine ⟨fun s l m wf inRange => ?outcome, fun n i k p => ?transactions, fun n i k p => ?encodings⟩
  case outcome =>
    rw [HostLine.encoding, HostLine.transaction]
    rw [HostLine.inRange] at inRange
    generalize l.triple = triple at *
    obtain ⟨kind, sp, i, v⟩ := triple
    obtain ⟨write, read⟩ := flatBindingIsTheSpaceAndIndex s sp i v m wf (of_decide_eq_true inRange)
    cases kind with
    | write => exact write
    | read => exact read
  case transactions => exact ⟨rfl, rfl, rfl, rfl, rfl, rfl, rfl, rfl, rfl, rfl, rfl⟩
  case encodings => simp [HostLine.encoding, HostLine.triple, spaceBase, Config.default]

/-! ### Moves that answer -/

theorem exec_answers (i : Instr) (s : State) : ∃ t, exec i s = .next t := by cases i <;> exact ⟨_, rfl⟩

theorem hostWrite_answers (sp : Space) (i : Nat) (v : Word) (s : State) : ∃ t, hostWrite sp i v s = .next t := by
  cases sp with
  | reg =>
    match i with
    | 0 => exact exec_answers (decode v) s
    | 1 | 2 | 3 | 4 | 5 | _ + 6 => exact ⟨_, rfl⟩
  | gmem | bmem => exact ⟨_, rfl⟩

theorem flatAccess_answers {s : State} {a : FlatAccess} (wf : a.wellFormed s.cfg = true) :
    ∃ t, flatAccess a s = .next t := by
  obtain ⟨kind, addr, bits, v⟩ := a
  simp only [FlatAccess.wellFormed, FlatAccess.wholeWord, FlatAccess.aligned, FlatAccess.inSpaces, Bool.and_eq_true,
    beq_iff_eq, Option.isSome_iff_exists] at wf
  obtain ⟨⟨rfl, aligned⟩, ⟨sp, i⟩, resolved⟩ := wf
  cases kind with
  | read => exact ⟨_, flatAccess_read aligned resolved v⟩
  | write => exact flatAccess_write aligned resolved v ▸ hostWrite_answers sp i v s

/-- Settles O48: every command and host write answers, and so does a flat transaction at an element. -/
theorem everyMeaningfulMoveAnswers : Obligations.EveryMeaningfulMoveAnswers := by
  unfold Obligations.EveryMeaningfulMoveAnswers
  intro s wf
  cases hs : s.pending with
  | nil => exact ⟨_, step_of_pending_nil hs⟩
  | cons m ms =>
    have wf := wf m ms hs
    rw [step, nextMove, hs]
    cases m with
    | hostWrite sp i v => exact hostWrite_answers sp i v _
    | flat a => exact flatAccess_answers (s := s.setPending ms) wf
    | hostRead | block | reset | powerUp => exact ⟨_, rfl⟩

/-- Settles O49. -/
theorem idleBlockHasNoStep : Obligations.IdleBlockHasNoStep := by
  unfold Obligations.IdleBlockHasNoStep
  intro s idle pending
  rw [step_of_pending_nil pending, blockTurn_idle idle]

/-! ### Power-up -/

theorem resetEvent_env (s : State) : (resetEvent s).pending = s.pending ∧ (resetEvent s).replies = s.replies ∧
    (resetEvent s).draws = s.draws := by
  simp only [resetEvent, resetRegisters, forgetOutput]
  split
  · split <;> exact ⟨rfl, rfl, rfl⟩
  · exact ⟨rfl, rfl, rfl⟩

/-- Settles O51: power-up is written out, and reset leaves the model's own fields (`resetEvent_cfg`, `resetEvent_env`). -/
theorem powerUpEvent_spec : Obligations.PowerUpEvent := by
  unfold Obligations.PowerUpEvent
  intro s m
  exact ⟨⟨_, rfl, rfl, fun _ => rfl, fun _ => rfl⟩,
    ⟨_, step_reset s m, resetEvent_cfg (s.setPending m), resetEvent_env (s.setPending m)⟩⟩

end Sys2Proof.Machine
end
